-- ==== Sys2Proof/Word.lean ====
section
/-! DEFINITION. The plain words of the block (rules R12 and R13): bytes, command words, 16-bit operands. -/

namespace Sys2Proof

/-- A data byte, a storage slot or a frame byte: 8 bits (R12). -/
abbrev Byte := BitVec 8

/-- A 16-bit operand field of a command word (R60, R64). -/
abbrev Half := BitVec 16

/-- A command word, a response value or one 32-bit field of a frame (R12, R66, R73). -/
abbrev Word := BitVec 32

/-- `SENTINEL = 0x21`, the byte that starts a frame (R11). -/
def sentinel : Byte := 0x21

/-- `NEWLINE = 0x0A`, the byte that ends a line (R11; the value is the spec's, marked there as general knowledge, G1). -/
def newline : Byte := 0x0A

end Sys2Proof
end

