-- ==== Sys2Proof/Config.lean ====
section
/-! DEFINITION. What is fixed when the block is built (rules R5 to R10, R31) and the free values of the
reference mode (rules R15 and R179). The parameters are plain data carried by State and changed by no step. -/

namespace Sys2Proof

/-- `LINE_EVICT_POLICY` (R6): whether evicting a newline is counted out of the line count. -/
inductive LineEvictPolicy
  | fix
  | inherit
  deriving DecidableEq, Repr

/-- `SHORT_FRAME_POLICY` (R7): what READCMD does when the frame at the head has not fully arrived. -/
inductive ShortFramePolicy
  | robust
  | reference
  deriving DecidableEq, Repr

/-- `FLOAT_ORDER` (R8): the byte order of a 32-bit frame field. -/
inductive FloatOrder
  | le
  | be
  deriving DecidableEq, Repr

/-- `RECV_ATOMICITY` (R9): whether one RECV is one atomic step or one step per appended byte. -/
inductive RecvAtomicity
  | chunk
  | byte
  deriving DecidableEq, Repr

/-- The build-time parameters (R31).
`capacityPred` is `N - 1`: the type holds exactly the legal capacities `1 .. 65535` of R5. -/
structure Config where
  capacityPred  : Fin 65535
  lineEvict     : LineEvictPolicy
  shortFrame    : ShortFramePolicy
  floatOrder    : FloatOrder
  recvAtomicity : RecvAtomicity
  deriving DecidableEq, Repr

/-- `N`, the buffer capacity in bytes (R5). -/
def Config.N (c : Config) : Nat := c.capacityPred.val + 1

/-- `MAX_CHUNK` (R10, R31): informational, not enforced by the block. -/
def Config.maxChunk : Nat := 20

/-- `IDX_W`, the width in bits of the write index (R12). -/
def Config.idxW (c : Config) : Nat := max 1 (Nat.clog 2 c.N)

/-- `LEN_W`, the width in bits of the length register (R12). -/
def Config.lenW (c : Config) : Nat := Nat.clog 2 (c.N + 1)

/-- The spec's default policies (R6 to R9) with the capacity the model's reset state is built with.
DESIGN CHOICE (log entry 1): the spec gives `N` no default; 32 is the capacity of the spec's programs P2, P4 and P6. -/
def Config.default : Config where
  capacityPred  := 31
  lineEvict     := .fix
  shortFrame    := .robust
  floatOrder    := .le
  recvAtomicity := .chunk

/-- FREE VALUE. The byte that the `n`-th draw of a run gives (`draw()` of R15, R179; U5): nothing constrains it. -/
opaque Config.drawByte : Nat → Byte

/-- FREE VALUE. The Boolean that the `n`-th draw of a run gives (`draw()` of R15, R179; U6): nothing constrains it. -/
opaque Config.drawMatch : Nat → Bool

end Sys2Proof
end

