-- ==== Sys2Proof/Syntax.lean ====
section
/-! DEFINITION. The instructions: one constructor per row of spec/opcode_table.json, the twelve commands of
rule R61 and the six frame types of rule R70. -/

namespace Sys2Proof

/-- The tag of a Vector3 frame (R70, R176). -/
inductive VectorTag
  | accel
  | gyro
  | mag
  | location
  deriving DecidableEq, Repr

/-- The kinds of frame (R70). -/
inductive FrameKind
  | quaternion
  | vector3 (tag : VectorTag)
  | controlPad
  deriving DecidableEq, Repr

/-- One operation of the block. The first twelve are presented on a command port; the last six are the frame
types, each selected by the type byte that follows a sentinel at the head of the buffer when READCMD is performed. -/
inductive Instr
  /-- ADD: append one byte (R103). -/
  | add (b : Byte)
  /-- POP: remove and return the oldest byte (R105). -/
  | pop
  /-- PEEKAT: read the byte at a logical position (R106). -/
  | peekat (index : Half)
  /-- LENGTH: the number of valid bytes (R107). -/
  | length
  /-- CLEAR: empty the buffer (R108). -/
  | clear
  /-- LINES: the line count (R141). -/
  | lines
  /-- PEEKLINE: the first line, truncated, not consumed (R142). -/
  | peekline (maxLen : Half)
  /-- READLINE: the first line, truncated, consumed whole (R143). -/
  | readline (maxLen : Half)
  /-- HASCMD: is there a sentinel at the head (R177). -/
  | hascmd
  /-- READCMD: try to take one frame from the head (R178, R179). -/
  | readcmd
  /-- RECV: the transport delivers one chunk; the data bytes follow the word on the port (R65, R104). -/
  | recv (data : List Byte)
  /-- RESET: the buffer part of `reset()`/`shutdown()` (R109). -/
  | reset
  /-- FRAME_Q: a Quaternion frame at the head (R70, R178). -/
  | frameQ
  /-- FRAME_A: a Vector3 frame tagged Accel at the head (R70, R178). -/
  | frameA
  /-- FRAME_G: a Vector3 frame tagged Gyro at the head (R70, R178). -/
  | frameG
  /-- FRAME_M: a Vector3 frame tagged Mag at the head (R70, R178). -/
  | frameM
  /-- FRAME_L: a Vector3 frame tagged Location at the head (R70, R178). -/
  | frameL
  /-- FRAME_B: a ControlPad frame at the head (R70, R178). -/
  | frameB
  deriving DecidableEq, Repr

/-- The instruction that stands for a frame kind. -/
def FrameKind.instr : FrameKind → Instr
  | .quaternion        => .frameQ
  | .vector3 .accel    => .frameA
  | .vector3 .gyro     => .frameG
  | .vector3 .mag      => .frameM
  | .vector3 .location => .frameL
  | .controlPad        => .frameB

/-- One item on a command port (R60, R65): a command word, presented whole, or one data byte of a RECV. -/
inductive PortItem
  | word (w : Word)
  | data (b : Byte)
  deriving DecidableEq, Repr

end Sys2Proof
end

