-- ==== Sys2Proof/WellFormed.lean ====
section
/-! DEFINITION. Which instruction terms some encoding spells: the operand ranges of rules R62, R65 and R74. -/

namespace Sys2Proof

/-- Well-formed instructions: a `maxLen` is not 0 (R62) and a RECV count fits 16 bits (R60, R74).
Every other operand fits its field by its type. -/
def Instr.wf : Instr → Bool
  | .add _      => true
  | .pop        => true
  | .peekat _   => true
  | .length     => true
  | .clear      => true
  | .lines      => true
  | .peekline m => decide (m ≠ 0)
  | .readline m => decide (m ≠ 0)
  | .hascmd     => true
  | .readcmd    => true
  | .recv data  => decide (data.length ≤ 65535)
  | .reset      => true
  | .frameQ     => true
  | .frameA     => true
  | .frameG     => true
  | .frameM     => true
  | .frameL     => true
  | .frameB     => true

/-- The commands of R61, as opposed to the frame types of R70. -/
def Instr.isCommand : Instr → Bool
  | .add _      => true
  | .pop        => true
  | .peekat _   => true
  | .length     => true
  | .clear      => true
  | .lines      => true
  | .peekline _ => true
  | .readline _ => true
  | .hascmd     => true
  | .readcmd    => true
  | .recv _     => true
  | .reset      => true
  | .frameQ     => false
  | .frameA     => false
  | .frameG     => false
  | .frameM     => false
  | .frameL     => false
  | .frameB     => false

end Sys2Proof
end

