-- ==== Sys2Proof/Decode.lean ====
section
/-! DEFINITION. Decoding: command words with the data bytes that follow them (rules R60 to R65), frame type bytes
(rules R70 and R71), and the encoder written from the same tables. Total on any items; a word that spells no
command is rejected by name. -/

namespace Sys2Proof

/-! ## Fields of a command word (R60) -/

/-- `CW[3:0]`, the opcode. -/
def opField (w : Word) : BitVec 4 := w.extractLsb' 0 4

/-- `CW[7:4]`, reserved, must be zero. -/
def rsvField (w : Word) : BitVec 4 := w.extractLsb' 4 4

/-- `CW[15:8]`, the byte operand. -/
def data8Field (w : Word) : Byte := w.extractLsb' 8 8

/-- `CW[31:16]`, the 16-bit unsigned operand. -/
def arg16Field (w : Word) : Half := w.extractLsb' 16 16

/-- `CW = (arg16 << 16) | (data8 << 8) | op`, the command word with these fields and `rsv = 0` (R60, R74). -/
def cmdWord (arg16 : Half) (data8 : Byte) (op : BitVec 4) : Word :=
  arg16.setWidth 32 <<< 16 ||| data8.setWidth 32 <<< 8 ||| op.setWidth 32

/-! ## Decoding a command word -/

/-- Why a word spells no command (R62, R63). Every one of these answers status `ILLEGAL` (R222). -/
inductive DecodeError
  /-- Opcode `0x0` or `0xD` to `0xF` (R63). -/
  | reservedOpcode
  /-- `rsv`, or a field that must be 0 for this opcode, is not zero (R62). -/
  | fieldNotZero
  /-- PEEKLINE or READLINE with `arg16 = 0` (R62). -/
  | zeroMaxLen
  deriving DecidableEq, Repr

/-- What a legal command word asks for: an instruction complete in one word, or a RECV whose data bytes follow (R65). -/
inductive Head
  | complete (i : Instr)
  | recv (count : Nat)
  deriving DecidableEq, Repr

/-- A one-word command that uses no operand: every field but the opcode must be 0 (R61, R62). -/
def plainCommand (w : Word) (i : Instr) : Except DecodeError Head :=
  if arg16Field w = 0 ∧ data8Field w = 0 then .ok (.complete i) else .error .fieldNotZero

/-- A line read: `data8` must be 0 and `maxLen` must not be 0 (R61, R62). -/
def lineCommand (w : Word) (i : Instr) : Except DecodeError Head :=
  if data8Field w = 0 then
    if arg16Field w = 0 then .error .zeroMaxLen else .ok (.complete i)
  else .error .fieldNotZero

/-- The opcode map of R61, after the check of `rsv`. -/
def decodeOp (w : Word) : Except DecodeError Head :=
  match opField w with
  | 0x1#4 => if arg16Field w = 0 then .ok (.complete (.add (data8Field w))) else .error .fieldNotZero
  | 0x2#4 => plainCommand w .pop
  | 0x3#4 => if data8Field w = 0 then .ok (.complete (.peekat (arg16Field w))) else .error .fieldNotZero
  | 0x4#4 => plainCommand w .length
  | 0x5#4 => plainCommand w .clear
  | 0x6#4 => plainCommand w .lines
  | 0x7#4 => lineCommand w (.peekline (arg16Field w))
  | 0x8#4 => lineCommand w (.readline (arg16Field w))
  | 0x9#4 => plainCommand w .hascmd
  | 0xA#4 => plainCommand w .readcmd
  | 0xB#4 => if data8Field w = 0 then .ok (.recv (arg16Field w).toNat) else .error .fieldNotZero
  | 0xC#4 => plainCommand w .reset
  | _     => .error .reservedOpcode

/-- What a command word spells (R61 to R64). -/
def decodeWord (w : Word) : Except DecodeError Head :=
  if rsvField w = 0 then decodeOp w else .error .fieldNotZero

/-! ## Decoding a port -/

/-- The data bytes taken for a RECV. -/
inductive DataTaken
  /-- All of them, oldest first, and the items behind them. -/
  | all (data : List Byte) (rest : List PortItem)
  /-- Not all of them are on the port yet. -/
  | short
  /-- A command word stands where a data byte is due. -/
  | broken
  deriving DecidableEq, Repr

/-- Take `n` data bytes from the front of a port (R65); `acc` holds those taken so far, newest first. -/
def takeData : Nat → List Byte → List PortItem → DataTaken
  | 0,     acc, rest             => .all acc.reverse rest
  | _ + 1, _,   []               => .short
  | n + 1, acc, .data b :: rest  => takeData n (b :: acc) rest
  | _ + 1, _,   .word _ :: _     => .broken

/-- What stands at the front of a command port. -/
inductive Decoded
  /-- A whole command, and the items behind it. -/
  | instr (i : Instr) (rest : List PortItem)
  /-- A word that spells no command, and the items behind that one word (R62: no data byte goes with it). -/
  | illegal (e : DecodeError) (rest : List PortItem)
  /-- No whole command is on the port yet. -/
  | incomplete
  /-- The items break the port's format of R65. -/
  | stray
  deriving DecidableEq, Repr

/-- Read one command from the front of a port (R60 to R65). -/
def decode : List PortItem → Decoded
  | []              => .incomplete
  | .data _ :: _    => .stray
  | .word w :: rest =>
    match decodeWord w with
    | .error e         => .illegal e rest
    | .ok (.complete i) => .instr i rest
    | .ok (.recv n)    =>
      match takeData n [] rest with
      | .all data rest' => .instr (.recv data) rest'
      | .short          => .incomplete
      | .broken         => .stray

/-! ## Frame types (R70, R71) -/

/-- The type byte of a frame kind (R70). -/
def FrameKind.typeByte : FrameKind → Byte
  | .quaternion        => 0x51
  | .vector3 .accel    => 0x41
  | .vector3 .gyro     => 0x47
  | .vector3 .mag      => 0x4D
  | .vector3 .location => 0x4C
  | .controlPad        => 0x42

/-- The frame kind of a type byte, or none for the 250 unrecognised ones (R70, R71). -/
def frameKindOf (t : Byte) : Option FrameKind :=
  if t = 0x51 then some .quaternion
  else if t = 0x41 then some (.vector3 .accel)
  else if t = 0x47 then some (.vector3 .gyro)
  else if t = 0x4D then some (.vector3 .mag)
  else if t = 0x4C then some (.vector3 .location)
  else if t = 0x42 then some .controlPad
  else none

/-- The length in bytes of a kind's payload, column `P` of R70. -/
def FrameKind.payloadLen : FrameKind → Nat
  | .quaternion => 16
  | .vector3 _  => 12
  | .controlPad => 2

/-- `PayloadLen(t)`, where none stands for `NONE` (R70). -/
def payloadLen (t : Byte) : Option Nat := (frameKindOf t).map FrameKind.payloadLen

/-- `Need(t) = P + 3`, the length of a whole frame of this kind (R69, R171). -/
def FrameKind.frameLen (k : FrameKind) : Nat := k.payloadLen + 3

/-- The instruction a frame's type byte selects (R70). -/
def decodeFrameType (t : Byte) : Option Instr := (frameKindOf t).map FrameKind.instr

/-! ## The encoder -/

/-- The two places an instruction's bits come from: items of a command port, or the type byte of a frame. -/
inductive Encoding
  | port (items : List PortItem)
  | frameType (t : Byte)
  deriving DecidableEq, Repr

/-- The bits of an instruction (R60, R61, R65, R70, R74). -/
def encode : Instr → Encoding
  | .add b      => .port [.word (cmdWord 0 b 0x1)]
  | .pop        => .port [.word (cmdWord 0 0 0x2)]
  | .peekat i   => .port [.word (cmdWord i 0 0x3)]
  | .length     => .port [.word (cmdWord 0 0 0x4)]
  | .clear      => .port [.word (cmdWord 0 0 0x5)]
  | .lines      => .port [.word (cmdWord 0 0 0x6)]
  | .peekline m => .port [.word (cmdWord m 0 0x7)]
  | .readline m => .port [.word (cmdWord m 0 0x8)]
  | .hascmd     => .port [.word (cmdWord 0 0 0x9)]
  | .readcmd    => .port [.word (cmdWord 0 0 0xA)]
  | .recv data  => .port (.word (cmdWord (BitVec.ofNat 16 data.length) 0 0xB) :: data.map PortItem.data)
  | .reset      => .port [.word (cmdWord 0 0 0xC)]
  | .frameQ     => .frameType 0x51
  | .frameA     => .frameType 0x41
  | .frameG     => .frameType 0x47
  | .frameM     => .frameType 0x4D
  | .frameL     => .frameType 0x4C
  | .frameB     => .frameType 0x42

/-- The items that present a command on a port; none for a frame type, which no port carries. -/
def encodeItems (i : Instr) : List PortItem :=
  match encode i with
  | .port items  => items
  | .frameType _ => []

/-- The instruction an encoding spells: the whole of the items and nothing behind them, or the type byte. -/
def decodeEncoding : Encoding → Option Instr
  | .frameType t => decodeFrameType t
  | .port items  =>
    match decode items with
    | .instr i []       => some i
    | .instr _ (_ :: _) => none
    | .illegal _ _      => none
    | .incomplete       => none
    | .stray            => none

/-! ## The opcode table's numbering -/

/-- The items a table word stands for: the word, and for a RECV its data bytes, all zero. -/
def tableItems (w : Word) : List PortItem :=
  match decodeWord w with
  | .error _          => [.word w]
  | .ok (.complete _) => [.word w]
  | .ok (.recv n)     => .word w :: List.replicate n (.data 0)

/-- The instruction the decoder reads from a table row's bits: an 8-bit row is a frame type byte, a 32-bit row a
command word. -/
def decodeTableWord (nbits w : Nat) : Option Instr :=
  if nbits ≤ 8 then decodeFrameType (BitVec.ofNat 8 w)
  else decodeEncoding (.port (tableItems (BitVec.ofNat 32 w)))

end Sys2Proof
end

