-- ==== Sys2Proof/Machine/State.lean ====
section
/-! DEFINITION. The state: the block's own tuple `(S, WI, LEN, LC)` of rule R20, its build-time parameters
(rule R31), and the outside of the block that the step reads and writes: the two agents' ports, the order in which
they are served, the responses emitted, and the counter of free values. All plain data. -/

namespace Sys2Proof.Machine

/-! ## Responses (R66 to R68) -/

/-- The status codes (R67). Code 6 is reserved and never produced, so it has no constructor (U13). -/
inductive Status
  | ok
  | empty
  | noCmd
  | insufficient
  | badType
  | badChecksum
  | illegal
  deriving DecidableEq, Repr

/-- A decoded frame (R176): words in wire order, with no meaning given to any of them (R73). -/
inductive Frame
  | quaternion (w0 w1 w2 w3 : Word)
  | vector3 (tag : VectorTag) (w0 w1 w2 : Word)
  | controlPad (b0 b1 : Byte)
  deriving DecidableEq, Repr

/-- The response record `(status, value, data, frame)` (R66). -/
structure Response where
  status : Status
  value  : Word
  data   : List Byte
  frame  : Option Frame
  deriving DecidableEq, Repr

/-! ## Storage -/

/-- The storage `S` as the slots that do not hold `unlistedByte`, in rising order (R21, R40). -/
abbrev Memory := List Host.Cell

/-- What a slot that is not listed reads as.
DESIGN CHOICE (log entry 2): after reset the storage is unspecified and never read (R21, R33). -/
def unlistedByte : Byte := 0x00

/-! ## Agents, ports and the outside world -/

/-- The two agents (R47). -/
inductive Agent
  | producer
  | consumer
  deriving DecidableEq, Repr

/-- A RECV between two of its byte steps (R45, R104; only under `RECV_ATOMICITY = BYTE`):
the bytes still to be appended, oldest first, and the count `k` its response will carry. -/
structure RecvTransfer where
  rest  : List Byte
  total : Nat
  deriving DecidableEq, Repr

/-- One agent's command port: the items presented and not yet taken, oldest first, and a RECV in progress. -/
structure Port where
  queue : List PortItem
  recv  : Option RecvTransfer
  deriving DecidableEq, Repr

/-- What happens next, decided outside the block (R29, R48): an agent gets one atomic step, or reset is asserted
(R250), possibly while an agent's command is being performed (U14). -/
inductive Event
  | serve (a : Agent)
  | reset (during : Option Agent)
  deriving DecidableEq, Repr

/-! ## The state -/

/-- The whole state. `storage`, `wi`, `len` and `lc` are the block's state of R20, `cfg` its parameters of R31.
`wi` and `len` are exact integers reduced mod `N` by every rule (R112); their ranges are in `State.Inv`. -/
structure State where
  /-- The build-time parameters (R5 to R9, R31). -/
  cfg       : Config
  /-- `S`, the storage (R21). -/
  storage   : Memory
  /-- `WI`, the write index, `0 .. N-1` (R22). -/
  wi        : Nat
  /-- `LEN`, the length, `0 .. N` (R23). -/
  len       : Nat
  /-- `LC`, the line count, 32 bits (R27). -/
  lc        : Word
  /-- The Producer's port (R47). -/
  producer  : Port
  /-- The Consumer's port (R47). -/
  consumer  : Port
  /-- The order of steps still to come, chosen outside the block (R48). -/
  schedule  : List Event
  /-- The agent whose step is being performed. -/
  serving   : Agent
  /-- The responses emitted so far, oldest first: the run's observation (R18). DESIGN CHOICE (log entry 9). -/
  responses : List Response
  /-- How many free values the run has drawn (R15). The model's own field, log entry 3. -/
  draws     : Nat
  deriving DecidableEq, Repr

/-- The block has no exception, trap or fatal error (R220, R226): no step ends in a fault, so there is no reason
for one. Raised by: nobody. -/
inductive Fault
  deriving DecidableEq, Repr

/-- Why a step is refused. -/
inductive Refusal
  /-- An instruction that has no meaning yet. Raised by: no arm of `exec` (every instruction has its meaning). Safe. -/
  | notModelled (mnemonic : String)
  /-- The outside breaks the port format of R65: a data byte where a command word is due, or a word where a RECV's
  data byte is due. Raised by: `step`, before any instruction is decoded. Safe: the model stops, where the spec says
  nothing (log entry 4). -/
  | strayPortData
  deriving DecidableEq, Repr

/-- A port with nothing presented and no RECV in progress. -/
def Port.empty : Port := { queue := [], recv := none }

/-- The state right after the reset event at construction (R33, R250): `WI`, `LEN` and `LC` are 0.
The storage is unspecified (log entry 2), `N` has no default (log entry 1), and nothing has been presented yet
(log entry 5). -/
def State.reset : State where
  cfg       := Config.default
  storage   := []
  wi        := 0
  len       := 0
  lc        := 0
  producer  := Port.empty
  consumer  := Port.empty
  schedule  := []
  serving   := .consumer
  responses := []
  draws     := 0

end Sys2Proof.Machine
end

