-- ==== Sys2Proof/Machine/Flags.lean ====
section
/-! DEFINITION. The computed side effects of an operation. The block has no flag or status register (rule R30); what
stands in their place is the line count's bookkeeping (rules R27, R100, R101), the checksum (rules R172 to R174) and
the outcome fields of a response (rules R67, R68). -/

namespace Sys2Proof.Machine

/-- `LC` after a byte is evicted: a newline is counted out under `FIX` only (R6, R100). -/
def lcAfterEvict (policy : LineEvictPolicy) (evicted : Byte) (lc : Word) : Word :=
  match policy with
  | .fix     => if evicted = newline then lc - 1 else lc
  | .inherit => lc

/-- `LC` after a byte is appended (R100). -/
def lcAfterAppend (b : Byte) (lc : Word) : Word :=
  if b = newline then lc + 1 else lc

/-- `LC` after a byte is removed (R101). -/
def lcAfterPop (b : Byte) (lc : Word) : Word :=
  if b = newline then lc - 1 else lc

/-- `Checksum(xs) = 255 - (sum mod 256)`, the bytes summed as unsigned values (R172). -/
def checksum (xs : List Byte) : Byte :=
  BitVec.ofNat 8 (255 - (xs.map BitVec.toNat).sum % 256)

/-- The `value` of an `EMPTY` response, -1 in 32 bits (R68). -/
def emptyValue : Word := 0xFFFFFFFF

/-- The `value` that returns a byte, zero-extended (R68). -/
def byteValue (b : Byte) : Word := b.setWidth 32

/-- The `value` that returns a count. -/
def countValue (n : Nat) : Word := BitVec.ofNat 32 n

/-- The 3-bit code of a status (R67). -/
def Status.code : Status → BitVec 3
  | .ok           => 0
  | .empty        => 1
  | .noCmd        => 2
  | .insufficient => 3
  | .badType      => 4
  | .badChecksum  => 5
  | .illegal      => 7

end Sys2Proof.Machine
end

