-- ==== Sys2Proof/Machine/Operands.lean ====
section
/-! DEFINITION. The forms operands take: slot numbers (rule R25), the fields of a frame (rules R73, R175, R176) and
the record they make. -/

namespace Sys2Proof.Machine

/-- `slot(i) = (WI + N - LEN + i) mod N`, the slot of logical position `i` (R25). -/
def State.slot (s : State) (i : Nat) : Nat := (s.wi + s.cfg.N - s.len + i) % s.cfg.N

/-- The slot the next append writes: `WI`. In `0 .. N-1` by R22; reduced mod `N` so that in no state an access
leaves the storage (R41).
DESIGN CHOICE (log entry 10), for states that no run reaches. -/
def State.writeSlot (s : State) : Nat := s.wi % s.cfg.N

/-- `RP`, the derived read pointer: the slot of the oldest byte (R26). -/
def State.readSlot (s : State) : Nat := s.slot 0

/-- `Word(p, o)`: four payload bytes as one 32-bit pattern, in the order `FLOAT_ORDER` gives (R175).
Offsets inside the payload by R73 and R176. -/
def wordAt (order : FloatOrder) (p : List Byte) (o : Nat) : Word :=
  let b (j : Nat) : Word := (p.getD (o + j) 0).setWidth 32
  match order with
  | .le => b 0 ||| b 1 <<< 8 ||| b 2 <<< 16 ||| b 3 <<< 24
  | .be => b 0 <<< 24 ||| b 1 <<< 16 ||| b 2 <<< 8 ||| b 3

/-- `Frame(t, p)`, the record of a kind and its payload (R176). -/
def frameOf (order : FloatOrder) (k : FrameKind) (p : List Byte) : Frame :=
  match k with
  | .quaternion  => .quaternion (wordAt order p 0) (wordAt order p 4) (wordAt order p 8) (wordAt order p 12)
  | .vector3 tag => .vector3 tag (wordAt order p 0) (wordAt order p 4) (wordAt order p 8)
  | .controlPad  => .controlPad (p.getD 0 0) (p.getD 1 0)

end Sys2Proof.Machine
end

