-- ==== Sys2Proof/Machine/Ops.lean ====
section
/-! DEFINITION. The named operations every meaning is built from: one byte of storage (rules R21, R42), the
primitives PushByte, PopByte and PeekByte (rules R100 to R102), the response of a command (rules R15, R66), a refused
command word (rule R222), the free draws (rule R179) and the reset event (rule R250). The block takes no exception and
returns from none (rules R220, R226), so no such operation stands here. -/

namespace Sys2Proof.Machine

/-! ## Storage (R21, R40 to R42) -/

/-- The byte in slot `a`. -/
def Memory.read : Memory → Nat → Byte
  | [],           _ => unlistedByte
  | (k, v) :: m,  a => if k = a then v else Memory.read m a

/-- Put `v` in slot `a`, keeping the canonical form: rising slots, none holding `unlistedByte`. -/
def Memory.write : Memory → Nat → Byte → Memory
  | [],          a, v => if v = unlistedByte then [] else [(a, v)]
  | (k, u) :: m, a, v =>
    if a < k then (if v = unlistedByte then (k, u) :: m else (a, v) :: (k, u) :: m)
    else if a = k then (if v = unlistedByte then m else (a, v) :: m)
    else (k, u) :: Memory.write m a v

/-- The canonical form: slots strictly rising and no entry equal to what an unlisted slot reads as. -/
def Memory.wf : Memory → Bool
  | []          => true
  | (k, v) :: m => decide (v ≠ unlistedByte) && m.all (fun c => decide (k < c.1)) && Memory.wf m

/-! ## The logical sequence (R25) -/

/-- `Q(i)`. -/
def State.at (s : State) (i : Nat) : Byte := s.storage.read (s.slot i)

/-- `Q(0) .. Q(LEN-1)`, the valid bytes, oldest first. -/
def State.contents (s : State) : List Byte := (List.range s.len).map s.at

/-! ## The primitives -/

/-- `PushByte(b)` (R100). -/
def pushByte (b : Byte) (s : State) : State :=
  if s.len = s.cfg.N then
    { s with
      lc      := lcAfterAppend b (lcAfterEvict s.cfg.lineEvict (s.storage.read s.writeSlot) s.lc)
      storage := s.storage.write s.writeSlot b
      wi      := (s.wi + 1) % s.cfg.N }
  else
    { s with
      lc      := lcAfterAppend b s.lc
      storage := s.storage.write s.writeSlot b
      wi      := (s.wi + 1) % s.cfg.N
      len     := s.len + 1 }

/-- `PushByte` of each byte in turn. -/
def pushBytes : List Byte → State → State
  | [],      s => s
  | b :: bs, s => pushBytes bs (pushByte b s)

/-- `PopByte()` (R101); none is `EMPTY`. -/
def popByte (s : State) : Option Byte × State :=
  if s.len = 0 then (none, s)
  else (some (s.at 0), { s with len := s.len - 1, lc := lcAfterPop (s.at 0) s.lc })

/-- `n` times `PopByte()`, the results in order. -/
def popBytes : Nat → State → List (Option Byte) × State
  | 0,     s => ([], s)
  | n + 1, s => ((popByte s).1 :: (popBytes n (popByte s).2).1, (popBytes n (popByte s).2).2)

/-- The bytes among the results of some pops. -/
def bytesOf (rs : List (Option Byte)) : List Byte := rs.filterMap id

/-- `PeekByte(i)` (R102); none is `EMPTY`. -/
def peekByte (i : Nat) (s : State) : Option Byte :=
  if s.len ≤ i then none else some (s.at i)

/-- `[PeekByte(0), ..., PeekByte(n-1)]`. -/
def peekBytes (n : Nat) (s : State) : List Byte :=
  (List.range n).filterMap (fun i => peekByte i s)

/-! ## Responses -/

/-- `respond(status, value, data, frame)` (R15, R66). -/
def respond (status : Status) (value : Word) (data : List Byte) (frame : Option Frame) (s : State) : State :=
  { s with responses := s.responses ++ [{ status := status, value := value, data := data, frame := frame }] }

/-- The answer to a word that spells no command (R222). -/
def illegalCommand (s : State) : State := respond .illegal 0 [] none s

/-- The answer that returns one byte, or `EMPTY` (R68, R105, R106). -/
def respondByte (r : Option Byte) (s : State) : State :=
  match r with
  | none   => respond .empty emptyValue [] none s
  | some b => respond .ok (byteValue b) [] none s

/-! ## Free values (R15, R179) -/

/-- `draw()` of a byte. -/
def drawByte (s : State) : Byte × State := (Config.drawByte s.draws, { s with draws := s.draws + 1 })

/-- `draw()` of a Boolean. -/
def drawMatch (s : State) : Bool × State := (Config.drawMatch s.draws, { s with draws := s.draws + 1 })

/-- The payload that REFERENCE mode stores: each empty read is a draw (R179). -/
def fillDraws : List (Option Byte) → State → List Byte × State
  | [],           s => ([], s)
  | some b :: rs, s => (b :: (fillDraws rs s).1, (fillDraws rs s).2)
  | none :: rs,   s => ((drawByte s).1 :: (fillDraws rs (drawByte s).2).1, (fillDraws rs (drawByte s).2).2)

/-- What a read adds to REFERENCE mode's running sum: the empty sentinel -1 counts as 255 (R179). -/
def sumValue : Option Byte → Nat
  | none   => 0xFF
  | some b => b.toNat

/-! ## Ports and the RECV of one chunk -/

/-- The port of an agent. -/
def State.port (s : State) : Agent → Port
  | .producer => s.producer
  | .consumer => s.consumer

/-- Replace an agent's port. -/
def State.setPort (s : State) (a : Agent) (p : Port) : State :=
  match a with
  | .producer => { s with producer := p }
  | .consumer => { s with consumer := p }

/-- Replace the items on an agent's port. -/
def State.setQueue (s : State) (a : Agent) (q : List PortItem) : State :=
  s.setPort a { s.port a with queue := q }

/-- Replace the RECV in progress on the port of the agent being served. -/
def State.setTransfer (s : State) (t : Option RecvTransfer) : State :=
  s.setPort s.serving { s.port s.serving with recv := t }

/-- One atomic step of a RECV under `RECV_ATOMICITY = BYTE`: append the next byte, and answer after the last
(R45, R104). DESIGN CHOICE (log entry 7): what a step of an empty chunk is, and when the first one can begin. -/
def recvStep (t : RecvTransfer) (s : State) : State :=
  match t.rest with
  | []           => respond .ok (countValue t.total) [] none (s.setTransfer none)
  | [b]          => respond .ok (countValue t.total) [] none ((pushByte b s).setTransfer none)
  | b :: c :: bs => (pushByte b s).setTransfer (some { rest := c :: bs, total := t.total })

/-! ## The reset event (R250) -/

/-- The items left on a port when the command at its front is lost. -/
def dropCommand (q : List PortItem) : List PortItem :=
  match decode q with
  | .instr _ rest   => rest
  | .illegal _ rest => rest
  | .incomplete     => q
  | .stray          => q

/-- What is left of a port when reset strikes: a RECV in progress is gone, and where reset strikes while the agent's
next command is being performed, so is that command (U14).
DESIGN CHOICE (log entry 8). -/
def Port.afterReset (p : Port) (during : Bool) : Port :=
  match p.recv with
  | some _ => { queue := p.queue, recv := none }
  | none   => { queue := if during then dropCommand p.queue else p.queue, recv := none }

/-- The reset event (R33, R250): the block's state is the reset state, and a response in progress is lost. The
parameters, what the agents have presented and not yet had taken, and what was already answered are outside it.
DESIGN CHOICE (log entry 8). -/
def resetEvent (during : Option Agent) (s : State) : State :=
  { s with
    storage  := State.reset.storage
    wi       := 0
    len      := 0
    lc       := 0
    producer := s.producer.afterReset (decide (during = some .producer))
    consumer := s.consumer.afterReset (decide (during = some .consumer)) }

end Sys2Proof.Machine
end

