-- ==== Sys2Proof/Machine/Frames.lean ====
section
/-! DEFINITION. The frame decoder: HASCMD, READCMD and the six frame types (rules R170 to R185). READCMD looks at the
head, and where a recognised type byte follows the sentinel it performs the meaning of that frame type. -/

namespace Sys2Proof.Machine

/-- `HasSentinel()` (R170). -/
def hasSentinel (s : State) : Bool := decide (peekByte 0 s = some sentinel)

/-- The kind of the frame whose head, a sentinel and a recognised type byte, stands at the front of the buffer. -/
def frameHead (s : State) : Option FrameKind :=
  if hasSentinel s then (peekByte 1 s).bind frameKindOf else none

/-! ## A frame of a known kind -/

/-- The end of R178, from the pops of the whole frame to its answer. -/
def takeWholeFrame (k : FrameKind) (s : State) : State :=
  let frame := bytesOf (popBytes k.frameLen s).1
  let s'    := (popBytes k.frameLen s).2
  let body  := frame.take (k.payloadLen + 2)
  let p     := body.drop 2
  if frame.drop (k.payloadLen + 2) = [checksum body] then
    respond .ok (countValue k.frameLen) p (some (frameOf s.cfg.floatOrder k p)) s'
  else respond .badChecksum (countValue k.frameLen) [] none s'

/-- R178 once the type byte is known: nothing is consumed until the whole frame is there. -/
def takeFrameRobust (k : FrameKind) (s : State) : State :=
  if s.len < k.frameLen then respond .insufficient 0 [] none s else takeWholeFrame k s

/-- R179's comparison of the checksum byte: a draw when the read was empty. -/
def referenceMatch (r : Option Byte) (sum : Nat) (s : State) : Bool × State :=
  match r with
  | none   => drawMatch s
  | some c => (decide (c = BitVec.ofNat 8 (255 - sum % 256)), s)

/-- The answer of R179: `n` bytes were removed. -/
def referenceAnswer (k : FrameKind) (n : Nat) (p : List Byte) (m : Bool × State) : State :=
  if m.1 then respond .ok (countValue n) p (some (frameOf m.2.cfg.floatOrder k p)) m.2
  else respond .badChecksum (countValue n) [] none m.2

/-- R179 once the sentinel and a recognised type byte have been popped: every read is made, arrived or not. -/
def referenceBody (k : FrameKind) (s : State) : State :=
  let reads   := (popBytes k.payloadLen s).1
  let payload := fillDraws reads (popBytes k.payloadLen s).2
  let last    := popByte payload.2
  let sum     := sentinel.toNat + k.typeByte.toNat + (reads.map sumValue).sum
  referenceAnswer k (2 + (bytesOf reads).length + (bytesOf [last.1]).length) payload.1
    (referenceMatch last.1 sum last.2)

/-- The frame of kind `k` at the head, under the block's `SHORT_FRAME_POLICY` (R178, R179).
DESIGN CHOICE (log entry 6): that a frame type is an instruction, and what it does where no such frame is at the head. -/
def takeFrame (k : FrameKind) (s : State) : State :=
  match s.cfg.shortFrame with
  | .robust    => takeFrameRobust k s
  | .reference => referenceBody k (popBytes 2 s).2

/-! ## READCMD -/

/-- READCMD under `ROBUST` (R178, R180). -/
def readcmdRobust (s : State) : State :=
  if hasSentinel s then
    match peekByte 1 s with
    | none   => respond .insufficient 0 [] none s
    | some t =>
      match frameKindOf t with
      | none   => respond .badType 2 [] none (popBytes 2 s).2
      | some k => takeFrameRobust k s
  else respond .noCmd 0 [] none s

/-- READCMD under `REFERENCE` (R179): the sentinel is popped, then the type byte is read by a pop. -/
def readcmdReference (s : State) : State :=
  if hasSentinel s then
    match (popByte (popByte s).2).1 with
    | none   => respond .badType 1 [] none (popByte (popByte s).2).2
    | some t =>
      match frameKindOf t with
      | none   => respond .badType 2 [] none (popByte (popByte s).2).2
      | some k => referenceBody k (popByte (popByte s).2).2
  else respond .noCmd 0 [] none s

/-! ## The meanings -/

/-- HASCMD (R177). -/
def execHascmd (s : State) : Host.Outcome State Fault Refusal :=
  .next (respond .ok (if hasSentinel s then 1 else 0) [] none s)

/-- READCMD (R178, R179). -/
def execReadcmd (s : State) : Host.Outcome State Fault Refusal :=
  match s.cfg.shortFrame with
  | .robust    => .next (readcmdRobust s)
  | .reference => .next (readcmdReference s)

/-- FRAME_Q: type byte `0x51`, Quaternion (R70, R178). -/
def execFrameQ (s : State) : Host.Outcome State Fault Refusal := .next (takeFrame .quaternion s)

/-- FRAME_A: type byte `0x41`, Vector3 tagged Accel (R70, R178). -/
def execFrameA (s : State) : Host.Outcome State Fault Refusal := .next (takeFrame (.vector3 .accel) s)

/-- FRAME_G: type byte `0x47`, Vector3 tagged Gyro (R70, R178). -/
def execFrameG (s : State) : Host.Outcome State Fault Refusal := .next (takeFrame (.vector3 .gyro) s)

/-- FRAME_M: type byte `0x4D`, Vector3 tagged Mag (R70, R178). -/
def execFrameM (s : State) : Host.Outcome State Fault Refusal := .next (takeFrame (.vector3 .mag) s)

/-- FRAME_L: type byte `0x4C`, Vector3 tagged Location (R70, R178). -/
def execFrameL (s : State) : Host.Outcome State Fault Refusal := .next (takeFrame (.vector3 .location) s)

/-- FRAME_B: type byte `0x42`, ControlPad (R70, R178). -/
def execFrameB (s : State) : Host.Outcome State Fault Refusal := .next (takeFrame .controlPad s)

end Sys2Proof.Machine
end

