-- ==== Sys2Proof/Machine/Lines.lean ====
section
/-! DEFINITION. The line reads: LINES, PEEKLINE and READLINE (rules R140 to R143). -/

namespace Sys2Proof.Machine

/-- The loop of `LineExtent()` with `n` positions left to look at, from position `i` (R140). -/
def lineScan (s : State) : Nat → Nat → Nat × Bool
  | 0,     i => (i, false)
  | n + 1, i => if peekByte i s = some newline then (i, true) else lineScan s n (i + 1)

/-- `LineExtent()`: the length of the first line's text, and whether a newline ends it (R140). -/
def lineExtent (s : State) : Nat × Bool := lineScan s s.len 0

/-- `k = min(L, maxLen - 1)`, the length of the text a line read returns (R142, R143). -/
def textLen (maxLen : Half) (s : State) : Nat := min (lineExtent s).1 (maxLen.toNat - 1)

/-- The bytes READLINE removes: the text, and the newline if there is one (R143). -/
def lineSpan (s : State) : Nat := if (lineExtent s).2 then (lineExtent s).1 + 1 else (lineExtent s).1

/-- LINES (R141). -/
def execLines (s : State) : Host.Outcome State Fault Refusal :=
  .next (respond .ok s.lc [] none s)

/-- PEEKLINE (R142); `maxLen = 0` spells no command (R62), and the decoder never gives it (log entry 11). -/
def execPeekline (maxLen : Half) (s : State) : Host.Outcome State Fault Refusal :=
  if maxLen = 0 then .next (illegalCommand s)
  else .next (respond .ok (countValue (textLen maxLen s)) (peekBytes (textLen maxLen s) s ++ [0x00]) none s)

/-- READLINE (R143): the text is the first `k` of the bytes removed; `maxLen = 0` spells no command (R62) and
the decoder never gives it (log entry 11). -/
def execReadline (maxLen : Half) (s : State) : Host.Outcome State Fault Refusal :=
  if maxLen = 0 then .next (illegalCommand s)
  else
    .next (respond .ok (countValue (textLen maxLen s))
      ((bytesOf (popBytes (lineSpan s) s).1).take (textLen maxLen s) ++ [0x00]) none
      (popBytes (lineSpan s) s).2)

end Sys2Proof.Machine
end

