-- ==== Sys2Proof/Machine/Ring.lean ====
section
/-! DEFINITION. The commands of the ring buffer: ADD, RECV, POP, PEEKAT, LENGTH, CLEAR and RESET (rules R103 to R109). -/

namespace Sys2Proof.Machine

/-- ADD (R103). -/
def execAdd (b : Byte) (s : State) : Host.Outcome State Fault Refusal :=
  .next (respond .ok 0 [] none (pushByte b s))

/-- The bytes of a chunk that RECV appends: the first `min(count, N)` of them (R104). -/
def appendedPart (data : List Byte) (s : State) : List Byte := data.take s.cfg.N

/-- RECV (R104). Under `CHUNK` the whole command is one step; under `BYTE` this is its first byte step and
`recvStep` performs the others. -/
def execRecv (data : List Byte) (s : State) : Host.Outcome State Fault Refusal :=
  match s.cfg.recvAtomicity with
  | .chunk =>
    .next (respond .ok (countValue (appendedPart data s).length) [] none (pushBytes (appendedPart data s) s))
  | .byte  => .next (recvStep { rest := appendedPart data s, total := (appendedPart data s).length } s)

/-- POP (R105). -/
def execPop (s : State) : Host.Outcome State Fault Refusal :=
  .next (respondByte (popByte s).1 (popByte s).2)

/-- PEEKAT (R106). -/
def execPeekat (index : Half) (s : State) : Host.Outcome State Fault Refusal :=
  .next (respondByte (peekByte index.toNat s) s)

/-- LENGTH (R107). -/
def execLength (s : State) : Host.Outcome State Fault Refusal :=
  .next (respond .ok (countValue s.len) [] none s)

/-- CLEAR (R108): `WI` and `S` are unchanged. -/
def execClear (s : State) : Host.Outcome State Fault Refusal :=
  .next (respond .ok 0 [] none { s with len := 0, lc := 0 })

/-- RESET (R109): `S` is unchanged. -/
def execReset (s : State) : Host.Outcome State Fault Refusal :=
  .next (respond .ok 0 [] none { s with wi := 0, len := 0, lc := 0 })

end Sys2Proof.Machine
end

