-- ==== Sys2Proof/Machine/Dispatch.lean ====
section
/-! DEFINITION. One arm per instruction. -/

namespace Sys2Proof.Machine

/-- What an instruction does. -/
def exec (i : Instr) (s : State) : Host.Outcome State Fault Refusal :=
  match i with
  | .add b => Sys2Proof.Machine.execAdd b s
  | .pop => Sys2Proof.Machine.execPop s
  | .peekat index => Sys2Proof.Machine.execPeekat index s
  | .length => Sys2Proof.Machine.execLength s
  | .clear => Sys2Proof.Machine.execClear s
  | .lines => Sys2Proof.Machine.execLines s
  | .peekline maxLen => Sys2Proof.Machine.execPeekline maxLen s
  | .readline maxLen => Sys2Proof.Machine.execReadline maxLen s
  | .hascmd => Sys2Proof.Machine.execHascmd s
  | .readcmd => Sys2Proof.Machine.execReadcmd s
  | .recv data => Sys2Proof.Machine.execRecv data s
  | .reset => Sys2Proof.Machine.execReset s
  | .frameQ => Sys2Proof.Machine.execFrameQ s
  | .frameA => Sys2Proof.Machine.execFrameA s
  | .frameG => Sys2Proof.Machine.execFrameG s
  | .frameM => Sys2Proof.Machine.execFrameM s
  | .frameL => Sys2Proof.Machine.execFrameL s
  | .frameB => Sys2Proof.Machine.execFrameB s

end Sys2Proof.Machine
end

