-- ==== Sys2Proof/Machine/Fetch.lean ====
section
/-! DEFINITION. How the block comes to its next atomic step: the served agent's port is looked at, a RECV in progress
goes on, a whole command is taken and decoded (rules R45, R47, R48, R60 to R65), and a READCMD with a recognised frame
head at the front of the buffer selects that frame type (rules R70, R178). -/

namespace Sys2Proof.Machine

/-- What a served agent's step performs, with the state it performs it on. -/
inductive Fetched
  /-- Nothing to perform: no whole command is on the port. DESIGN CHOICE (log entry 4): the block waits. -/
  | idle (s : State)
  /-- The next byte step of a RECV in progress. -/
  | resume (t : RecvTransfer) (s : State)
  /-- A word that spells no command, taken from the port. -/
  | illegal (s : State)
  /-- An instruction, its items taken from the port. -/
  | run (i : Instr) (s : State)
  /-- The port's format is broken. -/
  | stray
  deriving DecidableEq, Repr

/-- The instruction a decoded command selects: the frame type, where READCMD finds a recognised frame head.
DESIGN CHOICE (log entry 6). -/
def selectFrame (i : Instr) (s : State) : Instr :=
  if i = .readcmd then ((frameHead s).map FrameKind.instr).getD .readcmd else i

/-- The state in which the agent `a` is served and the events `es` are still to come. -/
def State.served (s : State) (a : Agent) (es : List Event) : State :=
  { s with schedule := es, serving := a }

/-- What the served agent's step performs. -/
def fetch (s : State) : Fetched :=
  match (s.port s.serving).recv with
  | some t => .resume t s
  | none   =>
    match decode (s.port s.serving).queue with
    | .incomplete     => .idle s
    | .stray          => .stray
    | .illegal _ rest => .illegal (s.setQueue s.serving rest)
    | .instr i rest   => .run (selectFrame i (s.setQueue s.serving rest)) (s.setQueue s.serving rest)

/-! ## Placing an instruction where the next step fetches it -/

/-- The agent that issues a command word (R47): RECV is the Producer's. -/
def issuer (w : Word) : Agent := if opField w = 0xB then .producer else .consumer

/-- The state with these items first on the agent's port, no RECV of its in progress, and that agent served next. -/
def State.present (s : State) (a : Agent) (items : List PortItem) : State :=
  { s.setPort a { queue := items ++ (s.port a).queue, recv := none } with schedule := .serve a :: s.schedule }

/-- The longest frame (R171). -/
def maxFrameLen : Nat := 19

/-- The buffer emptied and holding a frame of type `t` whose payload and checksum bytes are 0, as far as it fits.
DESIGN CHOICE (log entry 5). -/
def loadFrame (t : Byte) (s : State) : State :=
  pushBytes ((sentinel :: t :: List.replicate (maxFrameLen - 2) 0).take s.cfg.N)
    { s with wi := 0, len := 0, lc := 0 }

/-- A table word presented where the next step fetches: a command word on its agent's port, or READCMD on the
Consumer's port with a frame of that type in the buffer. -/
def placeTableWord (s : State) (nbits w : Nat) : State :=
  if nbits ≤ 8 then (loadFrame (BitVec.ofNat 8 w) s).present .consumer (encodeItems .readcmd)
  else s.present (issuer (BitVec.ofNat 32 w)) (tableItems (BitVec.ofNat 32 w))

end Sys2Proof.Machine
end

