-- ==== Sys2Proof/Machine/Step.lean ====
section
/-! DEFINITION. One atomic step of the block (rules R45 and R48), in the order the schedule gives. -/

namespace Sys2Proof.Machine

/-- One step. With nothing scheduled the block waits: it never stops by itself (R220). -/
def step (s : State) : Host.Outcome State Fault Refusal :=
  match s.schedule with
  | []                 => .next s
  | .reset during :: es => .next (resetEvent during { s with schedule := es })
  | .serve a :: es     =>
    match fetch (s.served a es) with
    | .idle t     => .next t
    | .resume r t => .next (recvStep r t)
    | .illegal t  => .next (illegalCommand t)
    | .run i t    => exec i t
    | .stray      => .refused .strayPortData

/-- `s` with the instruction of a table row placed so that the very next step runs it (log entry 5). -/
def State.withFetchWord (s : State) (nbits w : Nat) : State := placeTableWord s nbits w

end Sys2Proof.Machine
end

