-- ==== Sys2Proof/Safety.lean ====
section
/-! DEFINITION. What counts as a safe state and a safe run, and the terms statements are written in: the invariant of
the state (rules R22 to R24, R41), the exactness of the line count (rules R27, R28), equality of two states for every
observer (rule R34), and a run of a list of instructions (rules R18, R48). -/

namespace Sys2Proof.Machine

/-- A RECV in progress on a port is one of `BYTE` mode, has bytes left, and its count is at most `N` (R104). -/
abbrev Port.TransferOk (p : Port) (c : Config) : Prop :=
  p.recv.all (fun t => decide (c.recvAtomicity = .byte ∧ 0 < t.rest.length ∧ t.rest.length < t.total ∧ t.total ≤ c.N))
    = true

/-- The invariant: storage is in its canonical form and lies in slots `0 .. N-1` (R21, R41), `WI` is a slot (R22),
`LEN` is at most `N` (R23, R24), and a RECV in progress is one that R104 allows. -/
abbrev State.Inv (s : State) : Prop :=
  s.storage.wf = true ∧ (∀ c ∈ s.storage, c.1 < s.cfg.N) ∧ s.wi < s.cfg.N ∧ s.len ≤ s.cfg.N ∧
    s.producer.TransferOk s.cfg ∧ s.consumer.TransferOk s.cfg

/-- The number of newlines among the valid bytes (R27). -/
def State.newlines (s : State) : Nat := s.contents.count newline

/-- The line count is the number of newlines held (R27). -/
abbrev State.LineCountExact (s : State) : Prop := s.lc.toNat = s.newlines

/-- The line count is at least the number of newlines held (R28). -/
abbrev State.LineCountCovers (s : State) : Prop := s.newlines ≤ s.lc.toNat

/-- Two states that no command sequence can tell apart (R34): they differ at most in `WI` and in the storage outside
what the logical sequence shows. -/
abbrev State.Indistinguishable (s t : State) : Prop :=
  s.cfg = t.cfg ∧ s.len = t.len ∧ s.lc = t.lc ∧ s.contents = t.contents ∧ s.producer = t.producer ∧
    s.consumer = t.consumer ∧ s.schedule = t.schedule ∧ s.serving = t.serving ∧ s.responses = t.responses ∧
    s.draws = t.draws

/-- The text of the first line of a sequence: the bytes before the first newline, or all of them (R17, R140). -/
def firstLine (q : List Byte) : List Byte := q.takeWhile (fun b => decide (b ≠ newline))

/-- The bytes READLINE removes from a sequence: the first line's text, and its newline if there is one (R143). -/
def lineAndEnd (q : List Byte) : Nat := (firstLine q).length + if newline ∈ q then 1 else 0

/-- A word that spells no command: `rsv` not zero, a reserved opcode, a field that must be 0 and is not, or a line read
with `maxLen = 0` (R62, R63; the fields of each opcode by R61). -/
abbrev SpellsNoCommand (w : Word) : Prop :=
  rsvField w ≠ 0 ∨ opField w ∈ [0x0#4, 0xD#4, 0xE#4, 0xF#4] ∨ (opField w ≠ 0x1#4 ∧ data8Field w ≠ 0) ∨
    (opField w ∈ [0x1#4, 0x2#4, 0x4#4, 0x5#4, 0x6#4, 0x9#4, 0xA#4, 0xC#4] ∧ arg16Field w ≠ 0) ∨
    (opField w ∈ [0x7#4, 0x8#4] ∧ arg16Field w = 0)

/-- `k` steps of the machine, stopping where one stops. -/
def runSteps : Nat → State → Host.Outcome State Fault Refusal
  | 0,     s => .next s
  | k + 1, s =>
    match step s with
    | .next t    => runSteps k t
    | .fault r   => .fault r
    | .refused r => .refused r

/-- Perform a list of instructions in turn (R18, R48), stopping where one stops. -/
def runInstrs : List Instr → State → Host.Outcome State Fault Refusal
  | [],      s => .next s
  | i :: is, s =>
    match exec i s with
    | .next t    => runInstrs is t
    | .fault r   => .fault r
    | .refused r => .refused r

/-- The bytes an instruction appends on a block of capacity `n`; none for an instruction that is no append (R103, R104). -/
def appendsOf (n : Nat) : Instr → Option (List Byte)
  | .add b      => some [b]
  | .recv data  => some (data.take n)
  | .pop        => none
  | .peekat _   => none
  | .length     => none
  | .clear      => none
  | .lines      => none
  | .peekline _ => none
  | .readline _ => none
  | .hascmd     => none
  | .readcmd    => none
  | .reset      => none
  | .frameQ     => none
  | .frameA     => none
  | .frameG     => none
  | .frameM     => none
  | .frameL     => none
  | .frameB     => none

/-- The bytes a list of appends appends, in order. -/
def appendedBytes (n : Nat) (is : List Instr) : List Byte := is.flatMap (fun i => (appendsOf n i).getD [])

/-- The bytes an instruction appends in its first step: all of them, but under `BYTE` one byte of a RECV (R45, R104). -/
def firstAppends (c : Config) (i : Instr) : List Byte :=
  match c.recvAtomicity with
  | .chunk => (appendsOf c.N i).getD []
  | .byte  => ((appendsOf c.N i).getD []).take 1

/-- The bytes the next step appends: the next byte of a RECV in progress, or those of the instruction the served agent's
port decodes to. -/
def State.nextAppends (s : State) : List Byte :=
  match s.schedule with
  | []            => []
  | .reset _ :: _ => []
  | .serve a :: _ =>
    match (s.port a).recv with
    | some r => r.rest.take 1
    | none   =>
      match decode (s.port a).queue with
      | .instr i _   => firstAppends s.cfg i
      | .illegal _ _ => []
      | .incomplete  => []
      | .stray       => []

/-- No newline is among the bytes that appending `bs` takes from the head (R100, R144). -/
abbrev State.EvictsNoNewline (s : State) (bs : List Byte) : Prop :=
  newline ∉ (s.contents ++ bs).take (s.len + bs.length - s.cfg.N)

/-- A whole frame of kind `k` with payload `p` and the checksum its bytes require (R69). -/
def wholeFrame (k : FrameKind) (p : List Byte) : List Byte :=
  [sentinel, k.typeByte] ++ p ++ [checksum ([sentinel, k.typeByte] ++ p)]

/-- A response with no frame. -/
def plainResponse (status : Status) (value : Word) (data : List Byte) : Response :=
  { status := status, value := value, data := data, frame := none }

/-- The state after `n` of the oldest bytes are removed and the response `r` is emitted: `LEN` drops by `n`, `LC` by the
newlines among them, and nothing else changes (R101). -/
def State.removed (s : State) (n : Nat) (r : Response) : State :=
  { s with
    len       := s.len - n
    lc        := s.lc - BitVec.ofNat 32 ((s.contents.take n).count newline)
    responses := s.responses ++ [r] }

/-- The state after the response `r` is emitted and nothing else changes. -/
def State.answered (s : State) (r : Response) : State := { s with responses := s.responses ++ [r] }

/-- A port after a byte step of a RECV: the items behind the RECV, and the RECV in progress while bytes are left. -/
def portAfterByte (queue : List PortItem) (left : List Byte) (total : Nat) : Port :=
  { queue := queue, recv := if left = [] then none else some { rest := left, total := total } }

/-- What a byte step of a RECV answers: nothing while bytes are left, the count after the last (log entry 7). -/
def answerAfterByte (left : List Byte) (total : Nat) : List Response :=
  if left = [] then [plainResponse .ok (BitVec.ofNat 32 total) []] else []

/-- `t` is `s` after a step of the agent `a` that appends the one byte `b` (R100): the slot `WI` gets it and no other slot
changes, `WI`, `LEN` and `LC` follow, what does not fit is lost from the head, the agent's port is `p` and the responses
gain `rs`; the rest of the schedule is `es` and nothing else changes. -/
def State.ByteAppended (s t : State) (a : Agent) (es : List Event) (b : Byte) (p : Port) (rs : List Response) : Prop :=
  t = { s.setPort a p with
    schedule  := es
    serving   := a
    storage   := t.storage
    wi        := (s.wi + 1) % s.cfg.N
    len       := if s.len = s.cfg.N then s.cfg.N else s.len + 1
    lc        := s.lc - (if s.len = s.cfg.N ∧ s.cfg.lineEvict = .fix ∧ s.contents.head? = some newline then 1 else 0)
                      + (if b = newline then 1 else 0)
    responses := s.responses ++ rs } ∧
  (∀ x, t.storage.read x = if x = s.wi then b else s.storage.read x) ∧
  t.contents = (s.contents ++ [b]).drop (s.len + 1 - s.cfg.N)

end Sys2Proof.Machine
end

