-- ==== Sys2Proof/Certificates/Slice0/Obligations.lean ====
section
/-! DEFINITION. The statements for the provers, from the numbered rules of the spec. A statement about every state
carries the invariant `State.Inv` where only states that no run reaches could break it; the invariant is stated by
`ResetMeetsTheInvariant` and `EveryStepKeepsTheInvariant`. -/

open Sys2Proof Sys2Proof.Machine

/-! ## Encoding -/

/-- Decoding an encoded well-formed instruction gives it back, for the twelve commands (R60, R61, R65) and the six
frame types (R70), with every operand at every value its field admits. -/
def Obligations.DecodeOfEncodeIsTheInstruction : Prop :=
  ∀ i : Instr, i.wf = true → decodeEncoding (encode i) = some i

/-- A port's front reads as a command exactly where it is that command's encoding: one word for each command, a RECV
with exactly `count` data bytes, and everything behind it left (R60 to R65). -/
def Obligations.PortReadsExactlyTheEncodedCommands : Prop :=
  ∀ (items : List PortItem) (i : Instr) (rest : List PortItem),
    decode items = .instr i rest ↔ i.wf = true ∧ i.isCommand = true ∧ items = encodeItems i ++ rest

/-- The words the decoder rejects are those that R62 and R63 name, and no others. -/
def Obligations.RejectedWordsAreThoseThatSpellNoCommand : Prop :=
  ∀ w : Word, (∃ e, decodeWord w = .error e) ↔ SpellsNoCommand w

/-- A word that spells no command is taken alone, with no data byte, answers `ILLEGAL` and changes nothing else
(R62, R63, R222). -/
def Obligations.IllegalWordAnswersIllegalAndChangesNothing : Prop :=
  ∀ (s : State) (a : Agent) (es : List Event) (w : Word) (rest : List PortItem),
    s.schedule = .serve a :: es → (s.port a).recv = none → (s.port a).queue = .word w :: rest → SpellsNoCommand w →
      step s = .next { s.setPort a { queue := rest, recv := none } with
        schedule := es, serving := a, responses := s.responses ++ [plainResponse .illegal 0 []] }

/-- The table of frame types: six recognised type bytes with their kinds, payload lengths and frame lengths, and no
other (R70). -/
def Obligations.FrameTypesAreTheTable : Prop :=
  frameKindOf 0x51 = some .quaternion ∧ frameKindOf 0x41 = some (.vector3 .accel) ∧
  frameKindOf 0x47 = some (.vector3 .gyro) ∧ frameKindOf 0x4D = some (.vector3 .mag) ∧
  frameKindOf 0x4C = some (.vector3 .location) ∧ frameKindOf 0x42 = some .controlPad ∧
  (∀ t : Byte, t ∉ [0x51#8, 0x41#8, 0x47#8, 0x4D#8, 0x4C#8, 0x42#8] → payloadLen t = none) ∧
  payloadLen 0x51 = some 16 ∧ payloadLen 0x41 = some 12 ∧ payloadLen 0x47 = some 12 ∧ payloadLen 0x4D = some 12 ∧
  payloadLen 0x4C = some 12 ∧ payloadLen 0x42 = some 2 ∧
  FrameKind.quaternion.frameLen = 19 ∧ (∀ g, (FrameKind.vector3 g).frameLen = 15) ∧ FrameKind.controlPad.frameLen = 5

/-- Words written out by the spec decode to the commands it says (R61; vectors V1, V1a, V1b, V1c), and the frame type
bytes of R70 to their frame types. -/
def Obligations.SpecWordsDecodeAsTheSpecSays : Prop :=
  decode [.word 0x00000501] = .instr (.add 0x05) [] ∧
  decode [.word 0x00030003] = .instr (.peekat 3) [] ∧
  decode [.word 0x000A0008] = .instr (.readline 10) [] ∧
  decode [.word 0x0002000B, .data 0x68, .data 0x69, .word 0x00000002] = .instr (.recv [0x68, 0x69]) [.word 0x00000002] ∧
  decode [.word 0x00000002] = .instr .pop [] ∧
  decode [.word 0x0000000A] = .instr .readcmd [] ∧
  decodeFrameType 0x51 = some .frameQ ∧ decodeFrameType 0x42 = some .frameB

/-! ## The step -/

/-- Where the served agent's port holds a whole command, the step takes it from the port and is `exec` of it; a READCMD
whose head is a sentinel and a recognised type byte runs as that frame type (log entry 6). -/
def Obligations.StepRunsTheDecodedInstruction : Prop :=
  ∀ (s : State) (a : Agent) (es : List Event) (i : Instr) (rest : List PortItem),
    s.schedule = .serve a :: es → (s.port a).recv = none → decode (s.port a).queue = .instr i rest →
      step s =
        let u := { s.setPort a { queue := rest, recv := none } with schedule := es, serving := a }
        exec (if i = .readcmd then ((frameHead u).map FrameKind.instr).getD .readcmd else i) u

/-- The steps that run no instruction, in the model's own terms (log entries 4 and 5): with nothing scheduled the block
waits, an agent served with no whole command on its port leaves all but the schedule as it was, a RECV in progress goes
on, and a port that breaks the format of R65 is refused by name. -/
def Obligations.StepsThatRunNoInstruction : Prop :=
  (∀ s : State, s.schedule = [] → step s = .next s) ∧
  ∀ (s : State) (a : Agent) (es : List Event), s.schedule = .serve a :: es →
    (∀ r, (s.port a).recv = some r → step s = .next (recvStep r { s with schedule := es, serving := a })) ∧
    ((s.port a).recv = none →
      (decode (s.port a).queue = .incomplete → step s = .next { s with schedule := es, serving := a }) ∧
      (decode (s.port a).queue = .stray → step s = .refused .strayPortData))

/-- Nothing stops the block (R220, R226): every step, in every state, answers a next state, but for the one refusal of
the model's own, where the served agent's port breaks the format of R65 (log entry 4). -/
def Obligations.NothingStopsTheBlock : Prop :=
  ∀ s : State, (∃ t, step s = .next t) ∨
    (step s = .refused .strayPortData ∧ ∃ a es, s.schedule = .serve a :: es ∧ (s.port a).recv = none ∧
      decode (s.port a).queue = .stray)

/-- READCMD at a recognised frame head is the frame type's own meaning, under either policy: running the frame type
that the step selects is running READCMD (R178, R179; log entry 6). -/
def Obligations.ReadcmdIsTheFrameTypeItSelects : Prop :=
  ∀ (s : State) (k : FrameKind), s.Inv → frameHead s = some k → exec .readcmd s = exec k.instr s

/-- Steps keep the order: the schedule is used up event by event, a served agent's items are taken from the front of its
own port, and the other agent's port is left alone (R48). -/
def Obligations.StepsKeepEachAgentsOrder : Prop :=
  ∀ (s t : State) (a : Agent) (es : List Event), s.schedule = .serve a :: es → step s = .next t →
    t.schedule = es ∧ t.serving = a ∧ (∀ b, b ≠ a → t.port b = s.port b) ∧
      ∃ taken, (s.port a).queue = taken ++ (t.port a).queue

/-- Every command completes: in every state, whatever its operands, an instruction answers a next state with exactly one
response more, and the parameters, the ports, the schedule and the agent served are left as they were. The exception is
RECV under `BYTE`, whose first byte step may leave the response to a later step (R66, R104, R220). -/
def Obligations.EveryInstructionCompletesWithOneResponse : Prop :=
  ∀ (i : Instr) (s : State), (s.cfg.recvAtomicity = .chunk ∨ ∀ data, i ≠ .recv data) →
    ∃ t r, exec i s = .next t ∧ t.responses = s.responses ++ [r] ∧ t.cfg = s.cfg ∧ t.producer = s.producer ∧
      t.consumer = s.consumer ∧ t.schedule = s.schedule ∧ t.serving = s.serving

/-! ## The ring buffer -/

/-- ADD (R100, R103): the byte is stored in the slot `WI` and no other slot changes; `WI` advances by one mod `N`;
`LEN` grows unless the buffer is full, and then the oldest byte is lost; `LC` counts a newline appended in and, under
`FIX`, a newline lost out; the answer is `OK`; nothing else changes. -/
def Obligations.AddAppendsOneByte : Prop :=
  ∀ (b : Byte) (s : State), s.Inv → ∃ t, exec (.add b) s = .next t ∧
    t = { s with
      storage   := t.storage
      wi        := (s.wi + 1) % s.cfg.N
      len       := if s.len = s.cfg.N then s.cfg.N else s.len + 1
      lc        := s.lc - (if s.len = s.cfg.N ∧ s.cfg.lineEvict = .fix ∧ s.contents.head? = some newline then 1 else 0)
                        + (if b = newline then 1 else 0)
      responses := s.responses ++ [plainResponse .ok 0 []] } ∧
    (∀ a, t.storage.read a = if a = s.writeSlot then b else s.storage.read a) ∧ s.writeSlot = s.wi ∧
    t.contents = (if s.len = s.cfg.N then s.contents.tail else s.contents) ++ [b]

/-- RECV as one step (R104 under `CHUNK`): the first `k = min(count, N)` bytes are appended in order to the slots from
`WI` on and the rest of the chunk is dropped; every other slot keeps its byte; what does not fit is lost from the head;
`value = k`; nothing else changes. -/
def Obligations.ChunkRecvAppendsItsFirstBytes : Prop :=
  ∀ (data : List Byte) (s : State), s.Inv → s.cfg.recvAtomicity = .chunk →
    let k := min data.length s.cfg.N
    ∃ t, exec (.recv data) s = .next t ∧
      t = { s with
        storage   := t.storage
        wi        := (s.wi + k) % s.cfg.N
        len       := min (s.len + k) s.cfg.N
        lc        := s.lc
          - (if s.cfg.lineEvict = .fix then
              BitVec.ofNat 32 ((s.contents.take (s.len + k - s.cfg.N)).count newline) else 0)
          + BitVec.ofNat 32 ((data.take k).count newline)
        responses := s.responses ++ [plainResponse .ok (BitVec.ofNat 32 k) []] } ∧
      (∀ j, j < k → t.storage.read ((s.wi + j) % s.cfg.N) = data.getD j 0) ∧
      (∀ a, (∀ j, j < k → (s.wi + j) % s.cfg.N ≠ a) → t.storage.read a = s.storage.read a) ∧
      t.contents = (s.contents ++ data.take k).drop (s.len + k - s.cfg.N)

/-- A RECV served byte by byte with nothing in between ends in the state, responses included, that the one-step RECV
gives (R45, R104). How many steps that takes, with the answer in the step of the last byte and an empty RECV one step, is
the model's choice (log entry 7). -/
def Obligations.ByteRecvServedWholeEqualsChunkRecv : Prop :=
  ∀ (s : State) (a : Agent) (data : List Byte) (rest : List PortItem), s.Inv → s.cfg.recvAtomicity = .byte →
    (s.port a).recv = none → decode (s.port a).queue = .instr (.recv data) rest →
    s.schedule = List.replicate (max 1 (min data.length s.cfg.N)) (.serve a) →
    ∃ t, runSteps (max 1 (min data.length s.cfg.N)) s = .next t ∧
      exec (.recv data)
        { s.setPort a { queue := rest, recv := none } with
          schedule := [], serving := a, cfg := { s.cfg with recvAtomicity := .chunk } } =
        .next { t with cfg := { s.cfg with recvAtomicity := .chunk } }

/-- Under `BYTE` every prefix of a RECV's first `min(count, N)` bytes shows between its steps: the step that takes the RECV
from the port appends the first of them, each step of a RECV in progress appends the next, and only the step of the last
one answers (R45, R104). That a RECV begins with all its data on the port, that the answer comes in the step of the last
byte, and that a RECV with no bytes is one step, are the model's choice (log entry 7). -/
def Obligations.ByteStepAppendsOneByteAndOnlyTheLastAnswers : Prop :=
  ∀ (s : State) (a : Agent) (es : List Event), s.Inv → s.schedule = .serve a :: es →
    (∀ data rest, s.cfg.recvAtomicity = .byte → (s.port a).recv = none →
      decode (s.port a).queue = .instr (.recv data) rest →
      (data = [] → step s = .next { s.setPort a { queue := rest, recv := none } with
        schedule := es, serving := a, responses := s.responses ++ [plainResponse .ok 0 []] }) ∧
      (∀ b left, data.take s.cfg.N = b :: left →
        ∃ t, step s = .next t ∧ s.ByteAppended t a es b (portAfterByte rest left (min data.length s.cfg.N))
          (answerAfterByte left (min data.length s.cfg.N)))) ∧
    (∀ b left total, (s.port a).recv = some { rest := b :: left, total := total } →
      ∃ t, step s = .next t ∧
        s.ByteAppended t a es b (portAfterByte (s.port a).queue left total) (answerAfterByte left total))

/-- POP (R101, R105): an empty buffer answers `EMPTY` and does not change; otherwise the oldest byte is returned and
removed, `LC` drops by one when it is a newline, and nothing else changes. -/
def Obligations.PopReturnsTheOldestByte : Prop :=
  ∀ s : State, s.Inv →
    (s.contents = [] → exec .pop s = .next (s.answered (plainResponse .empty 0xFFFFFFFF []))) ∧
    (∀ b q, s.contents = b :: q → ∃ t, exec .pop s = .next t ∧ t.contents = q ∧
      t = { s with
        len       := s.len - 1
        lc        := if b = newline then s.lc - 1 else s.lc
        responses := s.responses ++ [plainResponse .ok (b.setWidth 32) []] })

/-- PEEKAT (R102, R106): the byte at the position asked, or `EMPTY` at or beyond `LEN`; no state change. -/
def Obligations.PeekatReadsTheByteAsked : Prop :=
  ∀ (i : Half) (s : State),
    (∀ b, s.contents[i.toNat]? = some b →
      exec (.peekat i) s = .next (s.answered (plainResponse .ok (b.setWidth 32) []))) ∧
    (s.len ≤ i.toNat → exec (.peekat i) s = .next (s.answered (plainResponse .empty 0xFFFFFFFF [])))

/-- LENGTH (R107): `value` is `LEN`, in `0 .. N`; no state change. -/
def Obligations.LengthReturnsTheLength : Prop :=
  ∀ s : State, s.Inv → ∃ v : Word, exec .length s = .next (s.answered (plainResponse .ok v [])) ∧
    v.toNat = s.len ∧ v.toNat ≤ s.cfg.N

/-- CLEAR (R108): the buffer is empty and `LC` is 0; `WI`, the storage, the capacity and all else are unchanged. -/
def Obligations.ClearEmptiesTheBuffer : Prop :=
  ∀ s : State, ∃ t, exec .clear s = .next t ∧ t.contents = [] ∧
    t = { s with len := 0, lc := 0, responses := s.responses ++ [plainResponse .ok 0 []] }

/-- RESET (R109): `WI`, `LEN` and `LC` are 0 and the storage is unchanged. -/
def Obligations.ResetCommandZeroesTheRegisters : Prop :=
  ∀ s : State, ∃ t, exec .reset s = .next t ∧ t.contents = [] ∧
    t = { s with wi := 0, len := 0, lc := 0, responses := s.responses ++ [plainResponse .ok 0 []] }

/-- RESET and CLEAR give the same responses to every later sequence of steps (R109). -/
def Obligations.ClearAndResetAnswerAlikeEverAfter : Prop :=
  ∀ (s c r : State) (n : Nat), s.Inv → exec .clear s = .next c → exec .reset s = .next r →
    ∀ c', runSteps n c = .next c' → ∃ r', runSteps n r = .next r' ∧ r'.responses = c'.responses

/-- Removing the `n` oldest bytes leaves the bytes behind them, in order (R25, R101). -/
def Obligations.RemovalLeavesTheRestInOrder : Prop :=
  ∀ (s : State) (n : Nat) (r : Response), s.Inv → (s.removed n r).contents = s.contents.drop n

/-- The length law (R110), for ADDs on any block and RECVs that are one step: after any such appends from the empty state,
with `t` bytes appended in all, `LEN = min(t, N)` and the buffer holds the last `min(t, N)` of them in order. -/
def Obligations.LengthLawOfAppends : Prop :=
  ∀ (is : List Instr) (s : State), s.Inv → s.len = 0 → (∀ i ∈ is, (appendsOf s.cfg.N i).isSome = true) →
    (s.cfg.recvAtomicity = .chunk ∨ ∀ i ∈ is, ∃ b, i = .add b) →
    ∃ t, runInstrs is s = .next t ∧ t.len = min (appendedBytes s.cfg.N is).length s.cfg.N ∧
      t.contents = (appendedBytes s.cfg.N is).drop ((appendedBytes s.cfg.N is).length - s.cfg.N)

/-- The round-trip law (R111): `m <= N` appends to the empty buffer and `m` POPs return the bytes in order, each with
`OK`, and the next POP returns `EMPTY`. -/
def Obligations.RoundTripLawOfAppendsAndPops : Prop :=
  ∀ (bs : List Byte) (s : State), s.Inv → s.len = 0 → bs.length ≤ s.cfg.N →
    ∃ t, runInstrs (bs.map Instr.add ++ List.replicate bs.length .pop ++ [.pop]) s = .next t ∧
      t.responses = s.responses ++ List.replicate bs.length (plainResponse .ok 0 []) ++
        bs.map (fun b => plainResponse .ok (b.setWidth 32) []) ++ [plainResponse .empty 0xFFFFFFFF []]

/-- The read pointer (R26): it is no register but the slot of the oldest byte, it stands at `WI` in a full and in an empty
buffer, and unless the buffer is full the length is its distance to `WI`. -/
def Obligations.ReadPointerIsDerivedFromWiAndLen : Prop :=
  ∀ s : State, s.Inv →
    (s.len = s.cfg.N ∨ s.len = 0 → s.readSlot = s.wi) ∧
    (s.len ≠ s.cfg.N → s.len = (s.wi + s.cfg.N - s.readSlot) % s.cfg.N) ∧
    (∀ b q, s.contents = b :: q → s.storage.read s.readSlot = b)

/-- Only appends write storage or advance `WI`, and besides them only RESET writes `WI` (R21, R22, R112): every other
instruction leaves every slot and `WI` as they were, and RESET leaves every slot. -/
def Obligations.OnlyAppendsWriteStorage : Prop :=
  ∀ (i : Instr) (s t : State), s.Inv → appendsOf s.cfg.N i = none → exec i s = .next t →
    t.storage = s.storage ∧ (i ≠ .reset → t.wi = s.wi) ∧ t.len ≤ s.len

/-- LENGTH, LINES, PEEKAT, PEEKLINE and HASCMD change no state, and repeating one gives the same response (R46). -/
def Obligations.ReadsChangeNothingAndRepeat : Prop :=
  ∀ (i : Instr) (s : State),
    (i = .length ∨ i = .lines ∨ (∃ n, i = .peekat n) ∨ (∃ m, i = .peekline m) ∨ i = .hascmd) →
    ∃ r, exec i s = .next (s.answered r) ∧ exec i (s.answered r) = .next ((s.answered r).answered r)

/-! ## Lines -/

/-- LINES (R141): `value` is `LC`; no state change. -/
def Obligations.LinesReturnsTheLineCount : Prop :=
  ∀ s : State, exec .lines s = .next (s.answered (plainResponse .ok s.lc [])) ∧
    (s.LineCountExact → s.lc.toNat = s.contents.count newline)

/-- PEEKLINE (R140, R142): the first line's text, cut to `maxLen - 1` bytes and ended by a zero byte, `value` its length;
no state change. That the instruction with `maxLen = 0`, which no word decodes to, answers `ILLEGAL` is the model's
reading (log entry 11). -/
def Obligations.PeeklineReturnsTheFirstLine : Prop :=
  ∀ (m : Half) (s : State),
    (m = 0 → exec (.peekline m) s = .next (s.answered (plainResponse .illegal 0 []))) ∧
    (m ≠ 0 →
      let text := (firstLine s.contents).take (m.toNat - 1)
      exec (.peekline m) s = .next (s.answered (plainResponse .ok (BitVec.ofNat 32 text.length) (text ++ [0x00]))))

/-- READLINE (R140, R143): the answer of PEEKLINE, and the whole first line with its newline, if there is one, removed;
`LC` drops by one if there is one; nothing else changes. That the instruction with `maxLen = 0`, which no word decodes to,
answers `ILLEGAL` is the model's reading (log entry 11). -/
def Obligations.ReadlineReturnsAndRemovesTheFirstLine : Prop :=
  ∀ (m : Half) (s : State), s.Inv →
    (m = 0 → exec (.readline m) s = .next (s.answered (plainResponse .illegal 0 []))) ∧
    (m ≠ 0 →
      let text := (firstLine s.contents).take (m.toNat - 1)
      ∃ t, exec (.readline m) s = .next t ∧ t.contents = s.contents.drop (lineAndEnd s.contents) ∧
        t = { s with
          len       := s.len - lineAndEnd s.contents
          lc        := if newline ∈ s.contents then s.lc - 1 else s.lc
          responses := s.responses ++ [plainResponse .ok (BitVec.ofNat 32 text.length) (text ++ [0x00])] })

/-- The truncation law (R145). -/
def Obligations.TruncationLawOfLineReads : Prop :=
  ∀ (m : Half) (s : State), s.Inv → m ≠ 0 →
    ∃ v d t, exec (.peekline m) s = .next (s.answered (plainResponse .ok v d)) ∧
      exec (.readline m) (s.answered (plainResponse .ok v d)) = .next t ∧
      t.responses = s.responses ++ [plainResponse .ok v d, plainResponse .ok v d] ∧
      v.toNat ≤ m.toNat - 1 ∧ d.length = v.toNat + 1 ∧ d.getLast? = some 0x00 ∧
      (∀ (m' : Half) (u : State), m' ≠ 0 → exec (.readline m') s = .next u →
        u.contents = s.contents.drop (lineAndEnd s.contents))

/-! ## The frame decoder -/

/-- The checksum is 255 less the sum mod 256, and the two other formulas of the source give the same byte: the 8-bit
complement of the sum, and the complement in an unbounded two's-complement integer reduced mod 256 (R172, R173). -/
def Obligations.ChecksumFormulasAgree : Prop :=
  ∀ xs : List Byte,
    (checksum xs).toNat = 255 - (xs.map BitVec.toNat).sum % 256 ∧
    checksum xs = ~~~ (BitVec.ofNat 8 (xs.map BitVec.toNat).sum) ∧
    ((checksum xs).toNat : Int) = (-(((xs.map BitVec.toNat).sum % 256 : Nat) : Int) - 1) % 256

/-- A frame's checksum byte matches exactly where all its bytes sum to 255 mod 256, and so any one payload or checksum
byte of a valid frame changed to another value makes it invalid (R174). -/
def Obligations.WholeFrameSumIs255 : Prop :=
  (∀ (xs : List Byte) (c : Byte),
    c = checksum xs ↔ ((xs ++ [c]).map BitVec.toNat).sum % 256 = 255) ∧
  ∀ (k : FrameKind) (p : List Byte) (j : Nat) (b : Byte), p.length = k.payloadLen → 2 ≤ j → j < p.length + 3 →
    (wholeFrame k p)[j]? ≠ some b → (((wholeFrame k p).set j b).map BitVec.toNat).sum % 256 ≠ 255

/-- `Word(p, o)` holds the four payload bytes from offset `o`, the first of them lowest under `LE` and highest under
`BE` (R175). -/
def Obligations.WordAssemblyByFloatOrder : Prop :=
  ∀ (p : List Byte) (o : Nat), o + 4 ≤ p.length →
    ∀ j (_ : j < 4), ∃ b, p[o + j]? = some b ∧
      (wordAt .le p o).extractLsb' (8 * j) 8 = b ∧ (wordAt .be p o).extractLsb' (8 * (3 - j)) 8 = b

/-- HASCMD (R170, R177): 1 where the oldest byte is the sentinel, else 0, the empty buffer included; no state change. -/
def Obligations.HascmdLooksAtTheOldestByte : Prop :=
  ∀ s : State, exec .hascmd s =
    .next (s.answered (plainResponse .ok (if s.contents.head? = some sentinel then 1 else 0) []))

/-- READCMD under `ROBUST`, every row of the outcome table (R178, R180), with its answer, the bytes it removes and
everything else unchanged. -/
def Obligations.ReadcmdRobustOutcomes : Prop :=
  ∀ s : State, s.Inv → s.cfg.shortFrame = .robust →
    (s.contents.head? ≠ some sentinel → exec .readcmd s = .next (s.answered (plainResponse .noCmd 0 []))) ∧
    (s.contents = [sentinel] → exec .readcmd s = .next (s.answered (plainResponse .insufficient 0 []))) ∧
    (∀ t rest, s.contents = sentinel :: t :: rest → payloadLen t = none →
      exec .readcmd s = .next (s.removed 2 (plainResponse .badType 2 []))) ∧
    (∀ (k : FrameKind) rest, s.contents = sentinel :: k.typeByte :: rest → s.len < k.payloadLen + 3 →
      exec .readcmd s = .next (s.answered (plainResponse .insufficient 0 []))) ∧
    (∀ (k : FrameKind) p c rest, s.contents = sentinel :: k.typeByte :: (p ++ c :: rest) → p.length = k.payloadLen →
      (c ≠ checksum (sentinel :: k.typeByte :: p) → exec .readcmd s =
        .next (s.removed (k.payloadLen + 3) (plainResponse .badChecksum (BitVec.ofNat 32 (k.payloadLen + 3)) []))) ∧
      (c = checksum (sentinel :: k.typeByte :: p) → exec .readcmd s =
        .next (s.removed (k.payloadLen + 3)
          { status := .ok, value := BitVec.ofNat 32 (k.payloadLen + 3), data := p,
            frame := some (frameOf s.cfg.floatOrder k p) })))

/-- READCMD under `REFERENCE` (R179): the reads are made whether or not the bytes are there. Missing payload bytes are
draws, a missing checksum byte makes the comparison a draw, and everything held is consumed; the draws have any value.
With every byte present the outcome is that of R178. That a draw is an opaque constant applied to a counter in the state,
which each draw advances, is the model's choice (log entry 3). -/
def Obligations.ReadcmdReferenceOutcomes : Prop :=
  ∀ s : State, s.Inv → s.cfg.shortFrame = .reference →
    (s.contents.head? ≠ some sentinel → exec .readcmd s = .next (s.answered (plainResponse .noCmd 0 []))) ∧
    (s.contents = [sentinel] → exec .readcmd s = .next (s.removed 1 (plainResponse .badType 1 []))) ∧
    (∀ t rest, s.contents = sentinel :: t :: rest → payloadLen t = none →
      exec .readcmd s = .next (s.removed 2 (plainResponse .badType 2 []))) ∧
    (∀ (k : FrameKind) q, s.contents = sentinel :: k.typeByte :: q → q.length ≤ k.payloadLen →
      let m := k.payloadLen - q.length
      let p := q ++ (List.range m).map (fun i => Config.drawByte (s.draws + i))
      let r : Response :=
        if Config.drawMatch (s.draws + m) = true then
          { status := .ok, value := BitVec.ofNat 32 s.len, data := p, frame := some (frameOf s.cfg.floatOrder k p) }
        else plainResponse .badChecksum (BitVec.ofNat 32 s.len) []
      exec .readcmd s = .next { s.removed s.len r with draws := s.draws + m + 1 }) ∧
    (∀ (k : FrameKind) p c rest, s.contents = sentinel :: k.typeByte :: (p ++ c :: rest) → p.length = k.payloadLen →
      (c ≠ checksum (sentinel :: k.typeByte :: p) → exec .readcmd s =
        .next (s.removed (k.payloadLen + 3) (plainResponse .badChecksum (BitVec.ofNat 32 (k.payloadLen + 3)) []))) ∧
      (c = checksum (sentinel :: k.typeByte :: p) → exec .readcmd s =
        .next (s.removed (k.payloadLen + 3)
          { status := .ok, value := BitVec.ofNat 32 (k.payloadLen + 3), data := p,
            frame := some (frameOf s.cfg.floatOrder k p) })))

/-- The six frame types, FRAME_Q, FRAME_A, FRAME_G, FRAME_M, FRAME_L and FRAME_B (R70, R176, R178): with a whole frame
of its type at the head each removes exactly the frame and answers `OK` with the decoded record, or `BAD_CHECKSUM`,
under either policy; with fewer bytes held than its length it answers `INSUFFICIENT` under `ROBUST` and leaves them. That
frame types are instructions, and what one does where its head does not stand at the front, is the model's choice (log
entry 6). -/
def Obligations.FrameTypesTakeTheirFrame : Prop :=
  ∀ (k : FrameKind) (s : State), s.Inv →
    (∀ p c rest, s.contents = sentinel :: k.typeByte :: (p ++ c :: rest) → p.length = k.payloadLen →
      exec k.instr s = .next (s.removed (k.payloadLen + 3)
        (if c = checksum (sentinel :: k.typeByte :: p) then
          { status := .ok, value := BitVec.ofNat 32 (k.payloadLen + 3), data := p,
            frame := some (frameOf s.cfg.floatOrder k p) }
         else plainResponse .badChecksum (BitVec.ofNat 32 (k.payloadLen + 3)) []))) ∧
    (s.cfg.shortFrame = .robust → s.len < k.payloadLen + 3 →
      exec k.instr s = .next (s.answered (plainResponse .insufficient 0 [])))

/-- The record that a recognised type byte and its payload make (R176): which words or bytes of the payload each field
is. -/
def Obligations.FrameRecordOfEachType : Prop :=
  ∀ (o : FloatOrder) (p : List Byte),
    (frameKindOf 0x51).map (frameOf o · p) =
      some (.quaternion (wordAt o p 0) (wordAt o p 4) (wordAt o p 8) (wordAt o p 12)) ∧
    (frameKindOf 0x41).map (frameOf o · p) = some (.vector3 .accel (wordAt o p 0) (wordAt o p 4) (wordAt o p 8)) ∧
    (frameKindOf 0x47).map (frameOf o · p) = some (.vector3 .gyro (wordAt o p 0) (wordAt o p 4) (wordAt o p 8)) ∧
    (frameKindOf 0x4D).map (frameOf o · p) = some (.vector3 .mag (wordAt o p 0) (wordAt o p 4) (wordAt o p 8)) ∧
    (frameKindOf 0x4C).map (frameOf o · p) = some (.vector3 .location (wordAt o p 0) (wordAt o p 4) (wordAt o p 8)) ∧
    (∀ b0 b1, p = [b0, b1] → (frameKindOf 0x42).map (frameOf o · p) = some (.controlPad b0 b1))

/-- The corruption law (R184): a valid frame at the head is taken; with one payload or checksum byte changed it is
consumed all the same as `BAD_CHECKSUM`; with the sentinel changed nothing is consumed; with the type byte changed to an
unrecognised one two bytes are; with it changed to another recognised type, nothing is consumed where that type's frame
is not all there, and otherwise that type's length is, with a status decided by the checksum over those bytes. -/
def Obligations.CorruptionLawOfFrames : Prop :=
  ∀ (s : State) (k : FrameKind) (p rest : List Byte), s.Inv → s.cfg.shortFrame = .robust → p.length = k.payloadLen →
    (s.contents = wholeFrame k p ++ rest →
      ∃ r, exec .readcmd s = .next (s.removed (k.payloadLen + 3) r) ∧ r.status = .ok) ∧
    (∀ j b, 2 ≤ j → j < k.payloadLen + 3 → (wholeFrame k p)[j]? ≠ some b →
      s.contents = (wholeFrame k p).set j b ++ rest →
      exec .readcmd s =
        .next (s.removed (k.payloadLen + 3) (plainResponse .badChecksum (BitVec.ofNat 32 (k.payloadLen + 3)) []))) ∧
    (∀ b, b ≠ sentinel → s.contents = (wholeFrame k p).set 0 b ++ rest →
      exec .readcmd s = .next (s.answered (plainResponse .noCmd 0 []))) ∧
    (∀ b, payloadLen b = none → s.contents = (wholeFrame k p).set 1 b ++ rest →
      exec .readcmd s = .next (s.removed 2 (plainResponse .badType 2 []))) ∧
    (∀ k' : FrameKind, k' ≠ k → s.contents = (wholeFrame k p).set 1 k'.typeByte ++ rest →
      (s.len < k'.payloadLen + 3 → exec .readcmd s = .next (s.answered (plainResponse .insufficient 0 []))) ∧
      (k'.payloadLen + 3 ≤ s.len → ∃ r, exec .readcmd s = .next (s.removed (k'.payloadLen + 3) r) ∧
        r.status = if ((s.contents.take (k'.payloadLen + 3)).map BitVec.toNat).sum % 256 = 255 then .ok
          else .badChecksum))

/-- READCMD on an empty buffer, or where the oldest byte is not the sentinel, answers `NO_CMD` and consumes nothing, under
either policy (R185). -/
def Obligations.NoSentinelConsumesNothing : Prop :=
  ∀ s : State, (s.contents = [] ∨ ∃ b q, s.contents = b :: q ∧ b ≠ sentinel) →
    ∃ t, exec .readcmd s = .next t ∧ t = s.answered (plainResponse .noCmd 0 []) ∧ t.len = s.len

/-- A stalled head (R255): under `ROBUST`, while a recognised frame at the head is not all there, and so always where it
is longer than `N`, READCMD issued any number of times answers `INSUFFICIENT` each time and changes nothing. -/
def Obligations.StalledHeadAnswersInsufficientForever : Prop :=
  ∀ (s : State) (k : FrameKind) (rest : List Byte) (n : Nat), s.Inv → s.cfg.shortFrame = .robust →
    s.contents = sentinel :: k.typeByte :: rest → (s.cfg.N < k.payloadLen + 3 ∨ s.len < k.payloadLen + 3) →
    runInstrs (List.replicate n .readcmd) s =
      .next { s with responses := s.responses ++ List.replicate n (plainResponse .insufficient 0 []) }

/-- With no byte missing, `REFERENCE` answers as `ROBUST` does (R179): no sentinel at the head, an unrecognised type byte,
or a whole frame. -/
def Obligations.ReferenceAgreesWithRobustWhenNothingIsMissing : Prop :=
  ∀ s : State, s.Inv → s.cfg.shortFrame = .reference →
    (s.contents.head? ≠ some sentinel ∨ (∃ t rest, s.contents = sentinel :: t :: rest ∧ payloadLen t = none) ∨
      (∃ (k : FrameKind) (rest : List Byte), s.contents = sentinel :: k.typeByte :: rest ∧ k.payloadLen + 3 ≤ s.len)) →
    ∃ t, exec .readcmd s = .next t ∧
      exec .readcmd { s with cfg := { s.cfg with shortFrame := .robust } } =
        .next { t with cfg := { s.cfg with shortFrame := .robust } }

/-! ## Reset, invariants and the whole machine -/

/-- Reset (R250, R251): at construction, by the reset event in any state, and by the RESET command, `WI`, `LEN` and `LC` are
0, and the reset event ends a RECV in progress without its response. What it leaves outside the block is the model's
choice (log entry 8): the parameters, the events to come, the responses already emitted and the count of draws stay; an
agent's items stay, but where reset strikes while the agent's next command is being performed that command and its data
are gone and the items behind it stay. -/
def Obligations.ResetLeavesTheResetState : Prop :=
  (State.reset.wi = 0 ∧ State.reset.len = 0 ∧ State.reset.lc = 0) ∧
  (∀ (s : State) (d : Option Agent) (es : List Event), s.schedule = .reset d :: es →
    ∃ t, step s = .next t ∧ t.wi = 0 ∧ t.len = 0 ∧ t.lc = 0 ∧ t.contents = [] ∧ t.responses = s.responses ∧
      t.cfg = s.cfg ∧ t.schedule = es ∧ t.serving = s.serving ∧ t.draws = s.draws ∧
      ∀ b : Agent, (t.port b).recv = none ∧
        ((s.port b).recv ≠ none ∨ d ≠ some b → (t.port b).queue = (s.port b).queue) ∧
        ((s.port b).recv = none → d = some b →
          (∀ i rest, decode (s.port b).queue = .instr i rest → (t.port b).queue = rest) ∧
          (∀ e rest, decode (s.port b).queue = .illegal e rest → (t.port b).queue = rest) ∧
          (decode (s.port b).queue = .incomplete ∨ decode (s.port b).queue = .stray →
            (t.port b).queue = (s.port b).queue))) ∧
  (∀ s : State, ∃ t, exec .reset s = .next t ∧ t.wi = 0 ∧ t.len = 0 ∧ t.lc = 0)

/-- The reset state meets the invariant, and its line count is exact. -/
def Obligations.ResetMeetsTheInvariant : Prop := State.reset.Inv ∧ State.reset.LineCountExact

/-- Every step keeps the invariant: storage canonical and inside `0 .. N-1`, `WI < N`, `LEN <= N`, and a RECV in progress
as R104 allows (R21 to R24, R41, R104). -/
def Obligations.EveryStepKeepsTheInvariant : Prop :=
  ∀ s t : State, s.Inv → step s = .next t → t.Inv

/-- Under `FIX` every step keeps the line count equal to the number of newlines held (R27, R144). -/
def Obligations.EveryStepKeepsTheLineCountExactUnderFix : Prop :=
  ∀ s t : State, s.Inv → s.cfg.lineEvict = .fix → s.LineCountExact → step s = .next t → t.LineCountExact

/-- Under either policy and either atomicity an instruction whose first step evicts no newline completes that step with
the line count exact (R144): ADD, RECV in one step or its first byte step, and every instruction that appends nothing. -/
def Obligations.AppendsThatLoseNoNewlineKeepTheLineCountExact : Prop :=
  ∀ (i : Instr) (s : State), s.Inv → s.EvictsNoNewline (firstAppends s.cfg i) → s.LineCountExact →
    ∃ t, exec i s = .next t ∧ t.LineCountExact

/-- Under either policy every step that evicts no newline keeps the line count exact, so under `INHERIT` too it is exact
in a run in which no append evicts one (R144). -/
def Obligations.EveryStepThatEvictsNoNewlineKeepsTheLineCountExact : Prop :=
  ∀ s t : State, s.Inv → s.EvictsNoNewline s.nextAppends → s.LineCountExact → step s = .next t → t.LineCountExact

/-- Under `INHERIT` every step keeps the line count at least the number of newlines held, as long as it does not wrap
(R28). -/
def Obligations.EveryStepKeepsTheLineCountCoveringUnderInherit : Prop :=
  ∀ s t : State, s.Inv → s.cfg.lineEvict = .inherit → s.LineCountCovers → s.lc.toNat + s.cfg.N < 2 ^ 32 →
    step s = .next t → t.LineCountCovers

/-- The parameters are the same before and after every step, resets included (R31, R251). -/
def Obligations.EveryStepKeepsTheParameters : Prop :=
  ∀ s t : State, step s = .next t → t.cfg = s.cfg

/-- `WI` and `LEN` fit the widths of R12. -/
def Obligations.RegistersFitTheirWidths : Prop :=
  ∀ s : State, s.Inv → s.wi < 2 ^ s.cfg.idxW ∧ s.len < 2 ^ s.cfg.lenW

/-- Two states with equal `LEN`, `LC` and `Q` give equal responses to every sequence of steps, whatever `WI` and the other
slots are (R34): a run of one answers as the run of the other, and stops where it stops. -/
def Obligations.IndistinguishableStatesAnswerAlike : Prop :=
  ∀ (n : Nat) (s t : State), s.Inv → t.Inv → s.Indistinguishable t →
    (∀ s', runSteps n s = .next s' →
      ∃ t', runSteps n t = .next t' ∧ t'.responses = s'.responses ∧ s'.Indistinguishable t') ∧
    (∀ r, runSteps n s = .refused r → runSteps n t = .refused r)

/-- After reset neither `WI` nor the storage can be seen (R33): with the buffer empty, any value of `WI` in `0 .. N-1` and
any bytes in the storage give the same responses to every sequence of steps. -/
def Obligations.StorageAndWriteIndexOfAnEmptyBufferAreUnseen : Prop :=
  ∀ (n : Nat) (s s' : State) (m : Memory) (w : Nat), s.Inv → s.len = 0 → m.wf = true →
    (∀ c ∈ m, c.1 < s.cfg.N) → w < s.cfg.N → runSteps n s = .next s' →
    ∃ t', runSteps n { s with storage := m, wi := w } = .next t' ∧ t'.responses = s'.responses
end

