-- ==== Sys2Proof/Laws/Decode.lean ====
section
/-! SUPPORT. The fields of a command word put together and taken apart, and the data bytes of a RECV (rules R60, R65). -/

namespace Sys2Proof

/-- Every bit of a command word, by the field it lies in (R60). -/
theorem getLsbD_cmdWord (a : Half) (d : Byte) (o : BitVec 4) (i : Nat) :
    (cmdWord a d o).getLsbD i =
      if i < 4 then o.getLsbD i else if i < 8 then false else if i < 16 then d.getLsbD (i - 8) else a.getLsbD (i - 16) := by
  have ho : ∀ j, 4 ≤ j → o.getLsbD j = false := fun j hj => BitVec.getLsbD_of_ge o j hj
  have hd : ∀ j, 8 ≤ j → d.getLsbD j = false := fun j hj => BitVec.getLsbD_of_ge d j hj
  have ha : ∀ j, 16 ≤ j → a.getLsbD j = false := fun j hj => BitVec.getLsbD_of_ge a j hj
  simp only [cmdWord, BitVec.getLsbD_or, BitVec.getLsbD_shiftLeft, BitVec.getLsbD_setWidth]
  split_ifs with h1 h2 h3
  · simp [show i < 32 by omega, show i < 16 by omega, show i < 8 by omega]
  · simp [show i < 16 by omega, h2, ho i (by omega)]
  · simp [show i < 32 by omega, show i - 8 < 32 by omega, h2, h3, ho i (by omega)]
  · by_cases h4 : i < 32
    · simp [h4, show i - 16 < 32 by omega, show i - 8 < 32 by omega, h2, h3, ho i (by omega), hd (i - 8) (by omega)]
    · simp [h4, ha (i - 16) (by omega), ho i (by omega)]

@[simp] theorem opField_cmdWord (a : Half) (d : Byte) (o : BitVec 4) : opField (cmdWord a d o) = o := by
  apply BitVec.eq_of_getLsbD_eq
  intro i hi
  simp [opField, getLsbD_cmdWord, hi]

@[simp] theorem rsvField_cmdWord (a : Half) (d : Byte) (o : BitVec 4) : rsvField (cmdWord a d o) = 0 := by
  apply BitVec.eq_of_getLsbD_eq
  intro i hi
  simp [rsvField, getLsbD_cmdWord, hi]
  intro; omega

@[simp] theorem data8Field_cmdWord (a : Half) (d : Byte) (o : BitVec 4) : data8Field (cmdWord a d o) = d := by
  apply BitVec.eq_of_getLsbD_eq
  intro i hi
  rw [data8Field, BitVec.getLsbD_extractLsb', getLsbD_cmdWord, if_neg (by omega), if_neg (by omega), if_pos (by omega)]
  simp [hi]

@[simp] theorem arg16Field_cmdWord (a : Half) (d : Byte) (o : BitVec 4) : arg16Field (cmdWord a d o) = a := by
  apply BitVec.eq_of_getLsbD_eq
  intro i hi
  rw [arg16Field, BitVec.getLsbD_extractLsb', getLsbD_cmdWord, if_neg (by omega), if_neg (by omega), if_neg (by omega)]
  simp [hi]

/-- A word with `rsv = 0` is its fields put together. -/
theorem cmdWord_fields (w : Word) (h : rsvField w = 0) : cmdWord (arg16Field w) (data8Field w) (opField w) = w := by
  apply BitVec.eq_of_getLsbD_eq
  intro i hi
  have hr : ∀ j, j < 4 → w.getLsbD (4 + j) = false := by
    intro j hj
    have := congrArg (fun v => v.getLsbD j) h
    simpa [rsvField, hj] using this
  rw [getLsbD_cmdWord]
  simp only [arg16Field, data8Field, opField, BitVec.getLsbD_extractLsb']
  split_ifs with h1 h2 h3
  · simp [h1]
  · have := hr (i - 4) (by omega)
    rw [show 4 + (i - 4) = i by omega] at this
    exact this.symm
  · simp [show i - 8 < 8 by omega, show 8 + (i - 8) = i by omega]
  · simp [show i - 16 < 16 by omega, show 16 + (i - 16) = i by omega]

/-- The data bytes of a RECV are taken whole and the items behind them are left. -/
theorem takeData_map (bs acc : List Byte) (rest : List PortItem) :
    takeData bs.length acc (bs.map PortItem.data ++ rest) = .all (acc.reverse ++ bs) rest := by
  induction bs generalizing acc with
  | nil => simp [takeData]
  | cons b bs ih => simp [takeData, ih]

/-- What is taken for a RECV stood at the front of the port. -/
theorem takeData_all {n : Nat} {acc data : List Byte} {items rest : List PortItem}
    (h : takeData n acc items = .all data rest) :
    ∃ bs, bs.length = n ∧ data = acc.reverse ++ bs ∧ items = bs.map PortItem.data ++ rest := by
  induction n generalizing acc items with
  | zero => simp [takeData] at h; exact ⟨[], rfl, by simp [h.1], by simp [h.2]⟩
  | succ n ih =>
    cases items with
    | nil => simp [takeData] at h
    | cons it items =>
      cases it with
      | word w => simp [takeData] at h
      | data b =>
        obtain ⟨bs, h1, h2, h3⟩ := ih (by simpa [takeData] using h)
        exact ⟨b :: bs, by simp [h1], by simp [h2], by simp [h3]⟩

end Sys2Proof
end

