-- ==== Sys2Proof/Laws/Memory.lean ====
section
/-! SUPPORT. The laws of one byte of storage: a read after a write, and the canonical form that every write keeps. -/

namespace Sys2Proof.Machine

theorem Memory.wf_cons (k : Nat) (v : Byte) (m : Memory) :
    Memory.wf ((k, v) :: m) = true ↔ v ≠ unlistedByte ∧ (∀ c ∈ m, k < c.1) ∧ Memory.wf m = true := by
  simp [Memory.wf, and_assoc]

/-- A slot below every listed one reads as unlisted. -/
theorem Memory.read_of_lt (m : Memory) (a : Nat) (h : ∀ c ∈ m, a < c.1) : Memory.read m a = unlistedByte := by
  induction m with
  | nil => rfl
  | cons c m ih =>
    obtain ⟨k, v⟩ := c
    have hk : a < k := h (k, v) (by simp)
    rw [Memory.read, if_neg (by omega)]
    exact ih (fun c hc => h c (by simp [hc]))

/-- The slots a write leaves listed: those listed before, and the slot written. -/
theorem Memory.mem_write (m : Memory) (a : Nat) (v : Byte) (c : Host.Cell) (h : c ∈ Memory.write m a v) :
    c ∈ m ∨ c = (a, v) := by
  induction m with
  | nil => simp only [Memory.write] at h; split at h <;> simp_all
  | cons d m ih =>
    obtain ⟨k, u⟩ := d
    simp only [Memory.write] at h
    split_ifs at h <;> simp_all <;> tauto

theorem Memory.write_wf (m : Memory) (a : Nat) (v : Byte) (h : Memory.wf m = true) :
    Memory.wf (Memory.write m a v) = true := by
  induction m with
  | nil => simp only [Memory.write]; split_ifs <;> simp_all [Memory.wf]
  | cons d m ih =>
    obtain ⟨k, u⟩ := d
    obtain ⟨hu, hlt, hm⟩ := (Memory.wf_cons k u m).1 h
    simp only [Memory.write]
    split_ifs with h1 h2 h3 h4
    · exact h
    · refine (Memory.wf_cons _ _ _).2 ⟨h2, ?_, h⟩
      intro c hc
      rcases List.mem_cons.1 hc with rfl | hc
      · exact h1
      · exact lt_trans h1 (hlt c hc)
    · exact hm
    · subst h3; exact (Memory.wf_cons _ _ _).2 ⟨h4, hlt, hm⟩
    · refine (Memory.wf_cons _ _ _).2 ⟨hu, ?_, ih hm⟩
      intro c hc
      rcases Memory.mem_write m a v c hc with hc | rfl
      · exact hlt c hc
      · show k < a; omega

/-- A read after a write: the byte written in its slot, the byte there before in every other. -/
theorem Memory.read_write (m : Memory) (a b : Nat) (v : Byte) (h : Memory.wf m = true) :
    Memory.read (Memory.write m a v) b = if b = a then v else Memory.read m b := by
  induction m with
  | nil =>
    by_cases hv : v = unlistedByte
    · subst hv; simp [Memory.write, Memory.read]
    · simp only [Memory.write, if_neg hv, Memory.read, eq_comm (a := b)]
  | cons d m ih =>
    obtain ⟨k, u⟩ := d
    obtain ⟨hu, hlt, hm⟩ := (Memory.wf_cons k u m).1 h
    have hlow : ∀ x, x ≤ k → Memory.read m x = unlistedByte := fun x hx =>
      Memory.read_of_lt m x (fun c hc => lt_of_le_of_lt hx (hlt c hc))
    rcases lt_trichotomy a k with h1 | rfl | h1
    · by_cases hv : v = unlistedByte
      · rw [Memory.write, if_pos h1, if_pos hv]
        split_ifs with hb
        · subst hb; rw [Memory.read, if_neg (by omega), hlow b (by omega), hv]
        · rfl
      · rw [Memory.write, if_pos h1, if_neg hv, Memory.read]
        simp only [eq_comm (a := b)]
    · by_cases hv : v = unlistedByte
      · rw [Memory.write, if_neg (by omega), if_pos rfl, if_pos hv]
        split_ifs with hb
        · subst hb; rw [hlow b (le_refl b), hv]
        · rw [Memory.read, if_neg (Ne.symm hb)]
      · rw [Memory.write, if_neg (by omega), if_pos rfl, if_neg hv, Memory.read, Memory.read]
        split_ifs <;> first | rfl | omega
    · rw [Memory.write, if_neg (by omega), if_neg (by omega), Memory.read, Memory.read, ih hm]
      split_ifs <;> first | rfl | omega

theorem Memory.write_slots (m : Memory) (a n : Nat) (v : Byte) (h : ∀ c ∈ m, c.1 < n) (ha : a < n) :
    ∀ c ∈ Memory.write m a v, c.1 < n := by
  intro c hc
  rcases Memory.mem_write m a v c hc with hc | rfl
  · exact h c hc
  · exact ha

end Sys2Proof.Machine
end

