-- ==== Sys2Proof/Laws/State.lean ====
section
/-! SUPPORT. One lemma per field per update of the state: what each named update leaves and what it sets. -/

namespace Sys2Proof

@[simp] theorem Config.N_pos (c : Config) : 0 < c.N := Nat.succ_pos _

@[simp] theorem Config.N_ne_zero (c : Config) : c.N ≠ 0 := Nat.succ_ne_zero _

theorem Config.N_le (c : Config) : c.N ≤ 65535 := c.capacityPred.isLt

end Sys2Proof

namespace Sys2Proof.Machine

section
variable (s : State) (st : Status) (v : Word) (d : List Byte) (f : Option Frame) (a : Agent) (p : Port)
  (q : List PortItem) (t : Option RecvTransfer) (b : Byte) (bs : List Byte) (n : Nat) (r : Option Byte)
  (rs : List (Option Byte)) (es : List Event)


/-! ### respond -/

@[simp] theorem respond_cfg : (respond st v d f s).cfg = s.cfg := rfl

@[simp] theorem respond_storage : (respond st v d f s).storage = s.storage := rfl

@[simp] theorem respond_wi : (respond st v d f s).wi = s.wi := rfl

@[simp] theorem respond_len : (respond st v d f s).len = s.len := rfl

@[simp] theorem respond_lc : (respond st v d f s).lc = s.lc := rfl

@[simp] theorem respond_producer : (respond st v d f s).producer = s.producer := rfl

@[simp] theorem respond_consumer : (respond st v d f s).consumer = s.consumer := rfl

@[simp] theorem respond_schedule : (respond st v d f s).schedule = s.schedule := rfl

@[simp] theorem respond_serving : (respond st v d f s).serving = s.serving := rfl

@[simp] theorem respond_responses : (respond st v d f s).responses = s.responses ++ [{ status := st, value := v, data := d, frame := f }] := rfl

@[simp] theorem respond_draws : (respond st v d f s).draws = s.draws := rfl

/-! ### a port replaced -/

@[simp] theorem setPort_cfg : (s.setPort a p).cfg = s.cfg := by
  cases a <;> rfl

@[simp] theorem setPort_storage : (s.setPort a p).storage = s.storage := by
  cases a <;> rfl

@[simp] theorem setPort_wi : (s.setPort a p).wi = s.wi := by
  cases a <;> rfl

@[simp] theorem setPort_len : (s.setPort a p).len = s.len := by
  cases a <;> rfl

@[simp] theorem setPort_lc : (s.setPort a p).lc = s.lc := by
  cases a <;> rfl

@[simp] theorem setPort_schedule : (s.setPort a p).schedule = s.schedule := by
  cases a <;> rfl

@[simp] theorem setPort_serving : (s.setPort a p).serving = s.serving := by
  cases a <;> rfl

@[simp] theorem setPort_responses : (s.setPort a p).responses = s.responses := by
  cases a <;> rfl

@[simp] theorem setPort_draws : (s.setPort a p).draws = s.draws := by
  cases a <;> rfl

@[simp] theorem setPort_port : (s.setPort a p).port a = p := by
  cases a <;> rfl

@[simp] theorem setQueue_cfg : (s.setQueue a q).cfg = s.cfg := by
  cases a <;> rfl

@[simp] theorem setQueue_storage : (s.setQueue a q).storage = s.storage := by
  cases a <;> rfl

@[simp] theorem setQueue_wi : (s.setQueue a q).wi = s.wi := by
  cases a <;> rfl

@[simp] theorem setQueue_len : (s.setQueue a q).len = s.len := by
  cases a <;> rfl

@[simp] theorem setQueue_lc : (s.setQueue a q).lc = s.lc := by
  cases a <;> rfl

@[simp] theorem setQueue_schedule : (s.setQueue a q).schedule = s.schedule := by
  cases a <;> rfl

@[simp] theorem setQueue_serving : (s.setQueue a q).serving = s.serving := by
  cases a <;> rfl

@[simp] theorem setQueue_responses : (s.setQueue a q).responses = s.responses := by
  cases a <;> rfl

@[simp] theorem setQueue_draws : (s.setQueue a q).draws = s.draws := by
  cases a <;> rfl

@[simp] theorem setTransfer_cfg : (s.setTransfer t).cfg = s.cfg := by
  simp [State.setTransfer]

@[simp] theorem setTransfer_storage : (s.setTransfer t).storage = s.storage := by
  simp [State.setTransfer]

@[simp] theorem setTransfer_wi : (s.setTransfer t).wi = s.wi := by
  simp [State.setTransfer]

@[simp] theorem setTransfer_len : (s.setTransfer t).len = s.len := by
  simp [State.setTransfer]

@[simp] theorem setTransfer_lc : (s.setTransfer t).lc = s.lc := by
  simp [State.setTransfer]

@[simp] theorem setTransfer_schedule : (s.setTransfer t).schedule = s.schedule := by
  simp [State.setTransfer]

@[simp] theorem setTransfer_serving : (s.setTransfer t).serving = s.serving := by
  simp [State.setTransfer]

@[simp] theorem setTransfer_responses : (s.setTransfer t).responses = s.responses := by
  simp [State.setTransfer]

@[simp] theorem setTransfer_draws : (s.setTransfer t).draws = s.draws := by
  simp [State.setTransfer]

/-! ### the agent served -/

@[simp] theorem served_cfg : (s.served a es).cfg = s.cfg := rfl

@[simp] theorem served_storage : (s.served a es).storage = s.storage := rfl

@[simp] theorem served_wi : (s.served a es).wi = s.wi := rfl

@[simp] theorem served_len : (s.served a es).len = s.len := rfl

@[simp] theorem served_lc : (s.served a es).lc = s.lc := rfl

@[simp] theorem served_producer : (s.served a es).producer = s.producer := rfl

@[simp] theorem served_consumer : (s.served a es).consumer = s.consumer := rfl

@[simp] theorem served_schedule : (s.served a es).schedule = es := rfl

@[simp] theorem served_serving : (s.served a es).serving = a := rfl

@[simp] theorem served_responses : (s.served a es).responses = s.responses := rfl

@[simp] theorem served_draws : (s.served a es).draws = s.draws := rfl

@[simp] theorem served_port : (s.served a es).port = s.port := rfl

/-! ### PushByte -/

@[simp] theorem pushByte_cfg : (pushByte b s).cfg = s.cfg := by
  unfold pushByte; split <;> rfl

@[simp] theorem pushByte_storage : (pushByte b s).storage = s.storage.write s.writeSlot b := by
  unfold pushByte; split <;> rfl

@[simp] theorem pushByte_wi : (pushByte b s).wi = (s.wi + 1) % s.cfg.N := by
  unfold pushByte; split <;> rfl

@[simp] theorem pushByte_producer : (pushByte b s).producer = s.producer := by
  unfold pushByte; split <;> rfl

@[simp] theorem pushByte_consumer : (pushByte b s).consumer = s.consumer := by
  unfold pushByte; split <;> rfl

@[simp] theorem pushByte_schedule : (pushByte b s).schedule = s.schedule := by
  unfold pushByte; split <;> rfl

@[simp] theorem pushByte_serving : (pushByte b s).serving = s.serving := by
  unfold pushByte; split <;> rfl

@[simp] theorem pushByte_responses : (pushByte b s).responses = s.responses := by
  unfold pushByte; split <;> rfl

@[simp] theorem pushByte_draws : (pushByte b s).draws = s.draws := by
  unfold pushByte; split <;> rfl

theorem pushByte_len : (pushByte b s).len = if s.len = s.cfg.N then s.len else s.len + 1 := by
  unfold pushByte; split <;> rfl

theorem pushByte_lc : (pushByte b s).lc = lcAfterAppend b
    (if s.len = s.cfg.N then lcAfterEvict s.cfg.lineEvict (s.storage.read s.writeSlot) s.lc else s.lc) := by
  unfold pushByte; split <;> rfl

/-- An append said at once: four fields change (R100). -/
theorem pushByte_eq : pushByte b s = { s with
    storage := s.storage.write s.writeSlot b
    wi      := (s.wi + 1) % s.cfg.N
    len     := if s.len = s.cfg.N then s.len else s.len + 1
    lc      := lcAfterAppend b
      (if s.len = s.cfg.N then lcAfterEvict s.cfg.lineEvict (s.storage.read s.writeSlot) s.lc else s.lc) } := by
  unfold pushByte; split_ifs <;> rfl

@[simp] theorem pushBytes_cfg : (pushBytes bs s).cfg = s.cfg := by
  induction bs generalizing s with
  | nil => rfl
  | cons b bs ih => simp [pushBytes, ih]

@[simp] theorem pushBytes_producer : (pushBytes bs s).producer = s.producer := by
  induction bs generalizing s with
  | nil => rfl
  | cons b bs ih => simp [pushBytes, ih]

@[simp] theorem pushBytes_consumer : (pushBytes bs s).consumer = s.consumer := by
  induction bs generalizing s with
  | nil => rfl
  | cons b bs ih => simp [pushBytes, ih]

@[simp] theorem pushBytes_schedule : (pushBytes bs s).schedule = s.schedule := by
  induction bs generalizing s with
  | nil => rfl
  | cons b bs ih => simp [pushBytes, ih]

@[simp] theorem pushBytes_serving : (pushBytes bs s).serving = s.serving := by
  induction bs generalizing s with
  | nil => rfl
  | cons b bs ih => simp [pushBytes, ih]

@[simp] theorem pushBytes_responses : (pushBytes bs s).responses = s.responses := by
  induction bs generalizing s with
  | nil => rfl
  | cons b bs ih => simp [pushBytes, ih]

@[simp] theorem pushBytes_draws : (pushBytes bs s).draws = s.draws := by
  induction bs generalizing s with
  | nil => rfl
  | cons b bs ih => simp [pushBytes, ih]

/-! ### PopByte -/

@[simp] theorem popByte_cfg : (popByte s).2.cfg = s.cfg := by
  unfold popByte; split <;> rfl

@[simp] theorem popByte_storage : (popByte s).2.storage = s.storage := by
  unfold popByte; split <;> rfl

@[simp] theorem popByte_wi : (popByte s).2.wi = s.wi := by
  unfold popByte; split <;> rfl

@[simp] theorem popByte_producer : (popByte s).2.producer = s.producer := by
  unfold popByte; split <;> rfl

@[simp] theorem popByte_consumer : (popByte s).2.consumer = s.consumer := by
  unfold popByte; split <;> rfl

@[simp] theorem popByte_schedule : (popByte s).2.schedule = s.schedule := by
  unfold popByte; split <;> rfl

@[simp] theorem popByte_serving : (popByte s).2.serving = s.serving := by
  unfold popByte; split <;> rfl

@[simp] theorem popByte_responses : (popByte s).2.responses = s.responses := by
  unfold popByte; split <;> rfl

@[simp] theorem popByte_draws : (popByte s).2.draws = s.draws := by
  unfold popByte; split <;> rfl

@[simp] theorem popBytes_cfg : (popBytes n s).2.cfg = s.cfg := by
  induction n generalizing s with
  | zero => rfl
  | succ n ih => simp [popBytes, ih]

@[simp] theorem popBytes_storage : (popBytes n s).2.storage = s.storage := by
  induction n generalizing s with
  | zero => rfl
  | succ n ih => simp [popBytes, ih]

@[simp] theorem popBytes_wi : (popBytes n s).2.wi = s.wi := by
  induction n generalizing s with
  | zero => rfl
  | succ n ih => simp [popBytes, ih]

@[simp] theorem popBytes_producer : (popBytes n s).2.producer = s.producer := by
  induction n generalizing s with
  | zero => rfl
  | succ n ih => simp [popBytes, ih]

@[simp] theorem popBytes_consumer : (popBytes n s).2.consumer = s.consumer := by
  induction n generalizing s with
  | zero => rfl
  | succ n ih => simp [popBytes, ih]

@[simp] theorem popBytes_schedule : (popBytes n s).2.schedule = s.schedule := by
  induction n generalizing s with
  | zero => rfl
  | succ n ih => simp [popBytes, ih]

@[simp] theorem popBytes_serving : (popBytes n s).2.serving = s.serving := by
  induction n generalizing s with
  | zero => rfl
  | succ n ih => simp [popBytes, ih]

@[simp] theorem popBytes_responses : (popBytes n s).2.responses = s.responses := by
  induction n generalizing s with
  | zero => rfl
  | succ n ih => simp [popBytes, ih]

@[simp] theorem popBytes_draws : (popBytes n s).2.draws = s.draws := by
  induction n generalizing s with
  | zero => rfl
  | succ n ih => simp [popBytes, ih]

/-! ### draws -/

@[simp] theorem drawByte_cfg : (drawByte s).2.cfg = s.cfg := rfl

@[simp] theorem drawMatch_cfg : (drawMatch s).2.cfg = s.cfg := rfl

@[simp] theorem drawByte_storage : (drawByte s).2.storage = s.storage := rfl

@[simp] theorem drawMatch_storage : (drawMatch s).2.storage = s.storage := rfl

@[simp] theorem drawByte_wi : (drawByte s).2.wi = s.wi := rfl

@[simp] theorem drawMatch_wi : (drawMatch s).2.wi = s.wi := rfl

@[simp] theorem drawByte_len : (drawByte s).2.len = s.len := rfl

@[simp] theorem drawMatch_len : (drawMatch s).2.len = s.len := rfl

@[simp] theorem drawByte_lc : (drawByte s).2.lc = s.lc := rfl

@[simp] theorem drawMatch_lc : (drawMatch s).2.lc = s.lc := rfl

@[simp] theorem drawByte_producer : (drawByte s).2.producer = s.producer := rfl

@[simp] theorem drawMatch_producer : (drawMatch s).2.producer = s.producer := rfl

@[simp] theorem drawByte_consumer : (drawByte s).2.consumer = s.consumer := rfl

@[simp] theorem drawMatch_consumer : (drawMatch s).2.consumer = s.consumer := rfl

@[simp] theorem drawByte_schedule : (drawByte s).2.schedule = s.schedule := rfl

@[simp] theorem drawMatch_schedule : (drawMatch s).2.schedule = s.schedule := rfl

@[simp] theorem drawByte_serving : (drawByte s).2.serving = s.serving := rfl

@[simp] theorem drawMatch_serving : (drawMatch s).2.serving = s.serving := rfl

@[simp] theorem drawByte_responses : (drawByte s).2.responses = s.responses := rfl

@[simp] theorem drawMatch_responses : (drawMatch s).2.responses = s.responses := rfl

@[simp] theorem drawByte_draws : (drawByte s).2.draws = s.draws + 1 := rfl

@[simp] theorem drawMatch_draws : (drawMatch s).2.draws = s.draws + 1 := rfl

@[simp] theorem fillDraws_cfg : (fillDraws rs s).2.cfg = s.cfg := by
  induction rs generalizing s with
  | nil => rfl
  | cons r rs ih => cases r <;> simp [fillDraws, ih]

@[simp] theorem fillDraws_storage : (fillDraws rs s).2.storage = s.storage := by
  induction rs generalizing s with
  | nil => rfl
  | cons r rs ih => cases r <;> simp [fillDraws, ih]

@[simp] theorem fillDraws_wi : (fillDraws rs s).2.wi = s.wi := by
  induction rs generalizing s with
  | nil => rfl
  | cons r rs ih => cases r <;> simp [fillDraws, ih]

@[simp] theorem fillDraws_len : (fillDraws rs s).2.len = s.len := by
  induction rs generalizing s with
  | nil => rfl
  | cons r rs ih => cases r <;> simp [fillDraws, ih]

@[simp] theorem fillDraws_lc : (fillDraws rs s).2.lc = s.lc := by
  induction rs generalizing s with
  | nil => rfl
  | cons r rs ih => cases r <;> simp [fillDraws, ih]

@[simp] theorem fillDraws_producer : (fillDraws rs s).2.producer = s.producer := by
  induction rs generalizing s with
  | nil => rfl
  | cons r rs ih => cases r <;> simp [fillDraws, ih]

@[simp] theorem fillDraws_consumer : (fillDraws rs s).2.consumer = s.consumer := by
  induction rs generalizing s with
  | nil => rfl
  | cons r rs ih => cases r <;> simp [fillDraws, ih]

@[simp] theorem fillDraws_schedule : (fillDraws rs s).2.schedule = s.schedule := by
  induction rs generalizing s with
  | nil => rfl
  | cons r rs ih => cases r <;> simp [fillDraws, ih]

@[simp] theorem fillDraws_serving : (fillDraws rs s).2.serving = s.serving := by
  induction rs generalizing s with
  | nil => rfl
  | cons r rs ih => cases r <;> simp [fillDraws, ih]

@[simp] theorem fillDraws_responses : (fillDraws rs s).2.responses = s.responses := by
  induction rs generalizing s with
  | nil => rfl
  | cons r rs ih => cases r <;> simp [fillDraws, ih]

/-! ### respondByte -/

@[simp] theorem respondByte_cfg : (respondByte r s).cfg = s.cfg := by
  cases r <;> rfl

@[simp] theorem respondByte_storage : (respondByte r s).storage = s.storage := by
  cases r <;> rfl

@[simp] theorem respondByte_wi : (respondByte r s).wi = s.wi := by
  cases r <;> rfl

@[simp] theorem respondByte_len : (respondByte r s).len = s.len := by
  cases r <;> rfl

@[simp] theorem respondByte_lc : (respondByte r s).lc = s.lc := by
  cases r <;> rfl

@[simp] theorem respondByte_producer : (respondByte r s).producer = s.producer := by
  cases r <;> rfl

@[simp] theorem respondByte_consumer : (respondByte r s).consumer = s.consumer := by
  cases r <;> rfl

@[simp] theorem respondByte_schedule : (respondByte r s).schedule = s.schedule := by
  cases r <;> rfl

@[simp] theorem respondByte_serving : (respondByte r s).serving = s.serving := by
  cases r <;> rfl

@[simp] theorem respondByte_draws : (respondByte r s).draws = s.draws := by
  cases r <;> rfl

end

end Sys2Proof.Machine
end

