-- ==== Sys2Proof/Laws/Ring.lean ====
section
/-! SUPPORT. What the primitives PushByte, PopByte and PeekByte do, said on the logical sequence `Q(0) .. Q(LEN-1)`
(rules R25, R100 to R102). Later proofs cite these and do not unfold the primitives. -/

namespace Sys2Proof.Machine

/-- The part of the invariant that the primitives need and keep. -/
abbrev State.RingOk (s : State) : Prop := s.storage.wf = true ∧ s.wi < s.cfg.N ∧ s.len ≤ s.cfg.N

theorem State.Inv.ring {s : State} (h : s.Inv) : s.RingOk := ⟨h.1, h.2.2.1, h.2.2.2.1⟩

/-! ## Slots -/

theorem State.slot_lt (s : State) (i : Nat) : s.slot i < s.cfg.N := Nat.mod_lt _ (by simp)

theorem State.writeSlot_lt (s : State) : s.writeSlot < s.cfg.N := Nat.mod_lt _ (by simp)

theorem State.writeSlot_eq {s : State} (h : s.RingOk) : s.writeSlot = s.wi := Nat.mod_eq_of_lt h.2.1

/-- The slot of a logical position, without the remainder. -/
theorem State.slot_eq {s : State} (h : s.RingOk) {i : Nat} (hi : i ≤ s.len) :
    s.slot i = if s.len - i ≤ s.wi then s.wi - (s.len - i) else s.wi + s.cfg.N - (s.len - i) := by
  obtain ⟨_, hw, hl⟩ := h
  unfold State.slot
  split_ifs with hc
  · rw [show s.wi + s.cfg.N - s.len + i = s.wi - (s.len - i) + s.cfg.N by omega, Nat.add_mod_right,
      Nat.mod_eq_of_lt (by omega)]
  · rw [Nat.mod_eq_of_lt (by omega)]; omega

/-- Below the end, a position's slot is not the one the next append writes, unless the buffer is full. -/
theorem State.slot_ne_wi {s : State} (h : s.RingOk) {i : Nat} (hi : i < s.len) (hf : 0 < i ∨ s.len < s.cfg.N) :
    s.slot i ≠ s.wi := by
  rw [State.slot_eq h (le_of_lt hi)]
  obtain ⟨_, hw, hl⟩ := h
  split_ifs <;> omega

/-! ## The logical sequence -/

@[simp] theorem State.contents_length (s : State) : s.contents.length = s.len := by simp [State.contents]

theorem State.contents_getElem (s : State) (i : Nat) (h : i < s.contents.length) : s.contents[i] = s.at i := by
  simp [State.contents]

/-- Two states with the same slots in view hold the same sequence. -/
theorem State.contents_congr {s t : State} (hl : s.len = t.len) (h : ∀ i, i < s.len → s.at i = t.at i) :
    s.contents = t.contents := by
  unfold State.contents
  rw [← hl]
  exact List.map_congr_left (fun i hi => h i (List.mem_range.1 hi))

@[simp] theorem respond_contents (s : State) (st : Status) (v : Word) (d : List Byte) (f : Option Frame) :
    (respond st v d f s).contents = s.contents := rfl

@[simp] theorem respondByte_contents (s : State) (r : Option Byte) : (respondByte r s).contents = s.contents := by
  cases r <;> rfl

@[simp] theorem setPort_contents (s : State) (a : Agent) (p : Port) : (s.setPort a p).contents = s.contents := by
  cases a <;> rfl

@[simp] theorem setTransfer_contents (s : State) (t : Option RecvTransfer) : (s.setTransfer t).contents = s.contents := by
  simp [State.setTransfer]

@[simp] theorem setQueue_contents (s : State) (a : Agent) (q : List PortItem) : (s.setQueue a q).contents = s.contents := by
  simp [State.setQueue]

@[simp] theorem served_contents (s : State) (a : Agent) (es : List Event) : (s.served a es).contents = s.contents := rfl

theorem State.contents_eq_nil {s : State} (h : s.len = 0) : s.contents = [] := by
  simp [State.contents, h]

/-- The sequence of a non-empty buffer, its head first. -/
theorem State.contents_eq_cons {s : State} (h : 0 < s.len) : s.contents = s.at 0 :: s.contents.tail := by
  have : s.contents ≠ [] := by intro hn; have := congrArg List.length hn; simp at this; omega
  obtain ⟨b, bs, hb⟩ := List.exists_cons_of_ne_nil this
  have h0 := s.contents_getElem 0 (by simpa using h)
  simp only [hb] at h0 ⊢
  simp at h0 ⊢
  exact h0

/-! ## PeekByte -/

/-- `PeekByte(i)` is the `i`-th valid byte, or empty (R102). -/
theorem peekByte_eq (i : Nat) (s : State) : peekByte i s = s.contents[i]? := by
  unfold peekByte
  split_ifs with h
  · rw [List.getElem?_eq_none (by simpa using h)]
  · rw [List.getElem?_eq_getElem (by simpa using h), State.contents_getElem]

theorem peekBytes_eq (n : Nat) (s : State) : peekBytes n s = s.contents.take n := by
  induction n with
  | zero => simp [peekBytes]
  | succ n ih =>
    have hs : peekBytes (n + 1) s = peekBytes n s ++ (peekByte n s).toList := by
      unfold peekBytes
      rw [List.range_succ, List.filterMap_append]
      cases h : peekByte n s <;> simp [h]
    rw [hs, ih, peekByte_eq, List.take_add_one]

/-! ## PopByte -/

theorem popByte_len (s : State) : (popByte s).2.len = s.len - 1 := by
  unfold popByte; split <;> simp_all

/-- The byte a pop returns is the head (R101). -/
theorem popByte_fst (s : State) : (popByte s).1 = s.contents.head? := by
  unfold popByte
  split_ifs with h
  · simp [State.contents_eq_nil h]
  · rw [State.contents_eq_cons (by omega)]; rfl

/-- A pop leaves the sequence without its head (R101). -/
theorem popByte_contents {s : State} (h : s.RingOk) : (popByte s).2.contents = s.contents.tail := by
  by_cases h0 : s.len = 0
  · simp [popByte, h0, State.contents_eq_nil]
  · apply List.ext_getElem
    · simp [popByte_len]
    · intro i h1 h2
      rw [State.contents_getElem, List.getElem_tail, State.contents_getElem]
      simp only [State.contents_length, popByte_len] at h1
      unfold State.at State.slot
      rw [popByte_storage, popByte_wi, popByte_cfg, popByte_len]
      congr 2
      obtain ⟨_, hw, hl⟩ := h
      omega

/-- A pop counts a newline out (R101). -/
theorem popByte_lc (s : State) :
    (popByte s).2.lc = s.lc - BitVec.ofNat 32 ((s.contents.take 1).count newline) := by
  unfold popByte
  split_ifs with h
  · simp [State.contents_eq_nil h]
  · rw [State.contents_eq_cons (by omega)]
    simp only [lcAfterPop, List.take_succ_cons, List.take_zero]
    by_cases hb : s.at 0 = newline
    · simp [hb]
    · simp [hb]

theorem popByte_ringOk {s : State} (h : s.RingOk) : (popByte s).2.RingOk := by
  refine ⟨by simpa using h.1, by simpa using h.2.1, ?_⟩
  rw [popByte_len, popByte_cfg]; have := h.2.2; omega

/-- The last of `n + 1` pops. -/
theorem popBytes_succ (n : Nat) (s : State) : (popBytes (n + 1) s).2 = (popByte (popBytes n s).2).2 := by
  induction n generalizing s with
  | zero => rfl
  | succ n ih => rw [popBytes, ih, popBytes]

theorem popBytes_len (n : Nat) (s : State) : (popBytes n s).2.len = s.len - n := by
  induction n generalizing s with
  | zero => rfl
  | succ n ih => rw [popBytes, ih, popByte_len]; omega

theorem popBytes_ringOk {s : State} (n : Nat) (h : s.RingOk) : (popBytes n s).2.RingOk := by
  induction n generalizing s with
  | zero => exact h
  | succ n ih => exact ih (popByte_ringOk h)

/-- `n` pops leave the sequence without its first `n` bytes. -/
theorem popBytes_contents {s : State} (n : Nat) (h : s.RingOk) : (popBytes n s).2.contents = s.contents.drop n := by
  induction n generalizing s with
  | zero => rfl
  | succ n ih => rw [popBytes, ih (popByte_ringOk h), popByte_contents h, ← List.drop_one, List.drop_drop, Nat.add_comm]

/-- `n` pops return the first `n` bytes, then empties. -/
theorem popBytes_fst {s : State} (n : Nat) (h : s.RingOk) :
    (popBytes n s).1 = (s.contents.take n).map some ++ List.replicate (n - s.len) none := by
  induction n generalizing s with
  | zero => simp [popBytes]
  | succ n ih =>
    rw [popBytes, ih (popByte_ringOk h), popByte_fst, popByte_contents h, popByte_len]
    by_cases h0 : s.len = 0
    · simp [State.contents_eq_nil h0, h0, List.replicate_succ]
    · rw [State.contents_eq_cons (by omega)]
      simp
      omega

/-- The bytes that `n` pops return. -/
theorem bytesOf_popBytes {s : State} (n : Nat) (h : s.RingOk) : bytesOf (popBytes n s).1 = s.contents.take n := by
  rw [popBytes_fst n h, bytesOf, List.filterMap_append]
  simp [List.filterMap_map, List.filterMap_replicate_of_none]

/-- `n` pops count out the newlines among the bytes they remove. -/
theorem popBytes_lc {s : State} (n : Nat) (h : s.RingOk) :
    (popBytes n s).2.lc = s.lc - BitVec.ofNat 32 ((s.contents.take n).count newline) := by
  induction n generalizing s with
  | zero => simp [popBytes]
  | succ n ih =>
    rw [popBytes, ih (popByte_ringOk h), popByte_lc, popByte_contents h]
    by_cases h0 : s.len = 0
    · simp [State.contents_eq_nil h0]
    · rw [State.contents_eq_cons (by omega)]
      simp only [List.tail_cons, List.take_succ_cons, List.take_zero, List.count_cons, List.count_nil,
        Nat.add_comm _ (if _ then 1 else 0), BitVec.ofNat_add, BitVec.sub_sub, BitVec.add_zero]

/-- `n` pops, said at once: `LEN` and `LC` change, nothing else does (R101). -/
theorem popBytes_snd {s : State} (n : Nat) (h : s.RingOk) :
    (popBytes n s).2 =
      { s with len := s.len - n, lc := s.lc - BitVec.ofNat 32 ((s.contents.take n).count newline) } := by
  rw [← popBytes_len, ← popBytes_lc n h]
  have : ∀ t : State, t.cfg = s.cfg → t.storage = s.storage → t.wi = s.wi → t.producer = s.producer →
      t.consumer = s.consumer → t.schedule = s.schedule → t.serving = s.serving → t.responses = s.responses →
      t.draws = s.draws → t = { s with len := t.len, lc := t.lc } := by
    rintro ⟨⟩; rintro rfl rfl rfl rfl rfl rfl rfl rfl rfl; rfl
  exact this _ (by simp) (by simp) (by simp) (by simp) (by simp) (by simp) (by simp) (by simp) (by simp)

/-! ## PushByte -/

theorem pushByte_ringOk {s : State} (b : Byte) (h : s.RingOk) : (pushByte b s).RingOk := by
  refine ⟨?_, ?_, ?_⟩
  · rw [pushByte_storage]; exact Memory.write_wf _ _ _ h.1
  · rw [pushByte_wi, pushByte_cfg]; exact Nat.mod_lt _ (by simp)
  · rw [pushByte_len, pushByte_cfg]; have := h.2.2; split_ifs <;> omega

/-- An append puts the byte at the end, and takes the head away when the buffer was full (R100). -/
theorem pushByte_contents {s : State} (b : Byte) (h : s.RingOk) :
    (pushByte b s).contents = s.contents.drop (s.len + 1 - s.cfg.N) ++ [b] := by
  have hr := h
  obtain ⟨hwf, hw, hl⟩ := h
  have hat : ∀ i, (pushByte b s).at i = if (pushByte b s).slot i = s.wi then b else s.storage.read ((pushByte b s).slot i) := by
    intro i
    unfold State.at
    rw [pushByte_storage, Memory.read_write _ _ _ _ hwf, State.writeSlot_eq hr]
  have hslot : ∀ i, i ≤ s.len → i + (s.len + 1 - s.cfg.N) ≤ s.len → (pushByte b s).slot i = s.slot (i + (s.len + 1 - s.cfg.N)) := by
    intro i hi _
    unfold State.slot
    rw [pushByte_wi, pushByte_cfg, pushByte_len]
    split_ifs with hf
    · rw [hf, Nat.add_sub_cancel, Nat.mod_add_mod, Nat.add_sub_cancel]
      congr 1; omega
    · rw [show (s.wi + 1) % s.cfg.N + s.cfg.N - (s.len + 1) + i = (s.wi + 1) % s.cfg.N + (s.cfg.N - (s.len + 1) + i) by omega,
        Nat.mod_add_mod]
      congr 1; omega
  apply List.ext_getElem
  · simp [pushByte_len]; split_ifs <;> omega
  · intro i h1 h2
    rw [State.contents_getElem, hat]
    simp only [State.contents_length, pushByte_len] at h1
    rw [List.getElem_append]
    simp only [List.length_drop, State.contents_length]
    split_ifs with hs hi hi
    · exfalso
      rw [hslot i (by omega) (by omega)] at hs
      exact State.slot_ne_wi hr (by omega) (by omega) hs
    · simp
    · rw [List.getElem_drop, State.contents_getElem, State.at, hslot i (by omega) (by omega), Nat.add_comm]
    · exfalso
      apply hs
      by_cases hf : s.len = s.cfg.N
      · rw [if_pos hf] at h1
        rw [State.slot_eq (pushByte_ringOk b hr) (by rw [pushByte_len]; split_ifs; omega)]
        rw [pushByte_len, pushByte_wi, pushByte_cfg, if_pos hf]
        have hi1 : s.len - i = 1 := by omega
        rw [hi1]
        rcases Nat.lt_or_ge (s.wi + 1) s.cfg.N with hlt | hge
        · rw [Nat.mod_eq_of_lt hlt]; simp
        · rw [show s.wi + 1 = s.cfg.N by omega, Nat.mod_self]; simp; omega
      · rw [if_neg hf] at h1
        rw [hslot i (by omega) (by omega)]
        rw [State.slot_eq hr (by omega)]
        rw [show i + (s.len + 1 - s.cfg.N) = s.len by omega]; simp

/-- The byte a full buffer loses is its head (R26, R100). -/
theorem evicted_eq {s : State} (h : s.RingOk) (hf : s.len = s.cfg.N) : s.storage.read s.writeSlot = s.at 0 := by
  have hw := State.writeSlot_eq h
  unfold State.at
  rw [hw, State.slot_eq h (Nat.zero_le _)]
  obtain ⟨_, h1, h2⟩ := h
  congr 1
  rw [if_neg (by omega)]; omega

/-- The line count of an append, by the policy (R6, R100). -/
theorem pushByte_lc_eq {s : State} (b : Byte) (h : s.RingOk) :
    (pushByte b s).lc = s.lc
      - (if s.cfg.lineEvict = .fix then BitVec.ofNat 32 ((s.contents.take (s.len + 1 - s.cfg.N)).count newline) else 0)
      + (if b = newline then 1 else 0) := by
  have key : ∀ l : Word, lcAfterAppend b l = l + (if b = newline then 1 else 0) := by
    intro l; unfold lcAfterAppend; split_ifs <;> simp
  rw [pushByte_lc, key]
  congr 1
  split_ifs with hf hp hp
  · rw [evicted_eq h hf, hp, State.contents_eq_cons (by rw [hf]; simp), show s.len + 1 - s.cfg.N = 1 by omega]
    by_cases hb : s.at 0 = newline <;> simp [lcAfterEvict, hb]
  · cases hq : s.cfg.lineEvict <;> simp_all [lcAfterEvict]
  · have := h.2.2
    rw [show s.len + 1 - s.cfg.N = 0 by omega]; simp
  · simp

theorem pushBytes_ringOk {s : State} (bs : List Byte) (h : s.RingOk) : (pushBytes bs s).RingOk := by
  induction bs generalizing s with
  | nil => exact h
  | cons b bs ih => exact ih (pushByte_ringOk b h)

theorem pushBytes_append (bs cs : List Byte) (s : State) : pushBytes (bs ++ cs) s = pushBytes cs (pushBytes bs s) := by
  induction bs generalizing s with
  | nil => rfl
  | cons b bs ih => simp [pushBytes, ih]

/-- Appends put their bytes at the end and take from the head what does not fit (R100, R110). -/
theorem pushBytes_contents {s : State} (bs : List Byte) (h : s.RingOk) :
    (pushBytes bs s).contents = (s.contents ++ bs).drop (s.len + bs.length - s.cfg.N) := by
  induction bs generalizing s with
  | nil => have := h.2.2; simp [pushBytes, show s.len - s.cfg.N = 0 by omega]
  | cons b bs ih =>
    rw [pushBytes, ih (pushByte_ringOk b h), pushByte_contents b h, pushByte_len, pushByte_cfg, List.append_assoc,
      List.singleton_append, List.length_cons]
    have := h.2.2
    rw [← List.drop_append_of_le_length (by simp; have := s.cfg.N_pos; omega), List.drop_drop]
    congr 1
    split_ifs <;> omega

theorem pushBytes_len {s : State} (bs : List Byte) (h : s.RingOk) :
    (pushBytes bs s).len = min (s.len + bs.length) s.cfg.N := by
  have := congrArg List.length (pushBytes_contents bs h)
  simp at this; omega

theorem pushBytes_wi {s : State} (bs : List Byte) (h : s.RingOk) :
    (pushBytes bs s).wi = (s.wi + bs.length) % s.cfg.N := by
  induction bs generalizing s with
  | nil => exact (Nat.mod_eq_of_lt h.2.1).symm
  | cons b bs ih =>
    rw [pushBytes, ih (pushByte_ringOk b h), pushByte_wi, pushByte_cfg, Nat.mod_add_mod, List.length_cons]
    congr 1; omega

/-- The line count of some appends: their newlines counted in, and under `FIX` those of the bytes lost counted out. -/
theorem pushBytes_lc {s : State} (bs : List Byte) (h : s.RingOk) :
    (pushBytes bs s).lc = s.lc
      - (if s.cfg.lineEvict = .fix then
          BitVec.ofNat 32 (((s.contents ++ bs).take (s.len + bs.length - s.cfg.N)).count newline) else 0)
      + BitVec.ofNat 32 (bs.count newline) := by
  induction bs generalizing s with
  | nil => have := h.2.2; simp [pushBytes, show s.len - s.cfg.N = 0 by omega]
  | cons b bs ih =>
    rw [pushBytes, ih (pushByte_ringOk b h), pushByte_lc_eq b h, pushByte_contents b h, pushByte_len, pushByte_cfg]
    have hl := h.2.2
    have hN := s.cfg.N_pos
    have hsplit : ∀ d e : Nat, d ≤ s.len → ((s.contents ++ b :: bs).take (d + e)).count newline =
        (s.contents.take d).count newline + ((s.contents.drop d ++ [b] ++ bs).take e).count newline := by
      intro d e hd
      rw [List.take_add, List.count_append, List.take_append_of_le_length (by simpa using hd),
        List.drop_append_of_le_length (by simpa using hd), List.append_assoc, List.singleton_append]
    have hb : (BitVec.ofNat 32 ((b :: bs).count newline)) = (if b = newline then 1 else 0) + BitVec.ofNat 32 (bs.count newline) := by
      rw [List.count_cons, Nat.add_comm, BitVec.ofNat_add]
      by_cases hbn : b = newline <;> simp [hbn]
    rw [hb, List.length_cons]
    have hidx : s.len + (bs.length + 1) - s.cfg.N = (s.len + 1 - s.cfg.N) +
        ((if s.len = s.cfg.N then s.len else s.len + 1) + bs.length - s.cfg.N) := by
      split_ifs <;> omega
    rw [hidx, hsplit _ _ (by omega), BitVec.ofNat_add]
    by_cases hp : s.cfg.lineEvict = .fix
    · simp only [hp, if_true]; ring
    · simp only [hp, if_false]; ring

/-- A slot that no append reaches keeps its byte: the slots reached are `WI`, `WI + 1`, ... `mod N`. -/
theorem pushBytes_read {s : State} (bs : List Byte) (h : s.RingOk) (a : Nat)
    (ha : ∀ j, j < bs.length → (s.wi + j) % s.cfg.N ≠ a) :
    (pushBytes bs s).storage.read a = s.storage.read a := by
  induction bs generalizing s with
  | nil => rfl
  | cons b bs ih =>
    rw [pushBytes, ih (pushByte_ringOk b h), pushByte_storage, Memory.read_write _ _ _ _ h.1, if_neg]
    · intro hab; exact ha 0 (by simp) (by simpa [State.writeSlot] using hab.symm)
    · intro j hj
      rw [pushByte_wi, pushByte_cfg, Nat.mod_add_mod, Nat.add_assoc, Nat.add_comm 1]
      exact ha (j + 1) (by simpa using hj)

theorem pushBytes_slots {s : State} (bs : List Byte) (h : ∀ c ∈ s.storage, c.1 < s.cfg.N) :
    ∀ c ∈ (pushBytes bs s).storage, c.1 < s.cfg.N := by
  induction bs generalizing s with
  | nil => exact h
  | cons b bs ih =>
    have := ih (s := pushByte b s) (by
      rw [pushByte_storage, pushByte_cfg]; exact Memory.write_slots _ _ _ _ h (State.writeSlot_lt s))
    simpa [pushBytes] using this

end Sys2Proof.Machine
end

