-- ==== Sys2Proof/Laws/Frames.lean ====
section
/-! SUPPORT. What the frame decoder does, said on the logical sequence (rules R170 to R179). -/

namespace Sys2Proof.Machine

theorem frameKindOf_typeByte (k : FrameKind) : frameKindOf k.typeByte = some k := by
  rcases k with _ | t | _
  · rfl
  · cases t <;> rfl
  · rfl

theorem typeByte_of_frameKindOf {t : Byte} {k : FrameKind} (h : frameKindOf t = some k) : t = k.typeByte := by
  unfold frameKindOf at h
  split_ifs at h with h1 h2 h3 h4 h5 h6 <;> (injection h with h; subst h; assumption)

theorem hasSentinel_eq (s : State) : hasSentinel s = decide (s.contents.head? = some sentinel) := by
  rw [hasSentinel, peekByte_eq, List.head?_eq_getElem?]

theorem payloadLen_eq_none {t : Byte} : payloadLen t = none ↔ frameKindOf t = none := by
  simp [payloadLen]

/-- The end of READCMD on a frame that stands whole at the head: `P + 3` bytes are removed, and the checksum over the
bytes before it decides the answer (R178). -/
theorem takeWholeFrame_eq {s : State} (h : s.RingOk) {k : FrameKind} {x t c : Byte} {p rest : List Byte}
    (hq : s.contents = x :: t :: (p ++ c :: rest)) (hp : p.length = k.payloadLen) :
    takeWholeFrame k s =
      if c = checksum (x :: t :: p) then
        s.removed (p.length + 3)
          { status := .ok, value := countValue (p.length + 3), data := p, frame := some (frameOf s.cfg.floatOrder k p) }
      else s.removed (p.length + 3) (plainResponse .badChecksum (countValue (p.length + 3)) []) := by
  have hk : k.frameLen = p.length + 3 := by rw [FrameKind.frameLen, hp]
  have hF : s.contents.take (p.length + 3) = x :: t :: (p ++ [c]) := by
    rw [hq]; simp [List.take_append]
  unfold takeWholeFrame
  rw [hk, bytesOf_popBytes _ h, popBytes_snd _ h, hF, ← hp]
  simp only [List.take_succ_cons, List.take_left', List.drop_succ_cons, List.drop_zero, List.drop_left']
  simp only [List.cons.injEq, and_true, State.removed, plainResponse, respond, hF]

theorem frameLen_ge (k : FrameKind) : 5 ≤ k.frameLen := by
  rcases k with _ | t | _ <;> simp [FrameKind.frameLen, FrameKind.payloadLen]

/-- The two bytes READCMD removes from a head with an unrecognised type, or before it reads a payload. -/
theorem popByte_popByte (s : State) : popByte (popByte s).2 = ((popByte (popByte s).2).1, (popBytes 2 s).2) := rfl

theorem popByte_popByte_fst {s : State} (h : s.RingOk) : (popByte (popByte s).2).1 = s.contents[1]? := by
  rw [popByte_fst, popByte_contents h, List.head?_eq_getElem?, List.getElem?_tail]

/-! ## REFERENCE mode (R179) -/

/-- The draws of a payload change nothing but the counter of draws. -/
theorem fillDraws_snd (rs : List (Option Byte)) (s : State) :
    (fillDraws rs s).2 = { s with draws := (fillDraws rs s).2.draws } := by
  induction rs generalizing s with
  | nil => rfl
  | cons r rs ih =>
    cases r with
    | some b => exact ih s
    | none => rw [fillDraws, ih]; rfl

/-- The payload of some arrived bytes and `m` missing ones: the bytes, then `m` draws in order. -/
theorem fillDraws_eq (xs : List Byte) (m : Nat) (s : State) :
    fillDraws (xs.map some ++ List.replicate m none) s =
      (xs ++ (List.range m).map (fun i => Config.drawByte (s.draws + i)), { s with draws := s.draws + m }) := by
  induction xs with
  | nil =>
    induction m generalizing s with
    | zero => rfl
    | succ m ih =>
      simp only [List.map_nil, List.nil_append] at ih ⊢
      rw [List.replicate_succ, fillDraws, ih]
      simp only [drawByte, List.range_succ_eq_map, List.map_cons, List.map_map, Nat.add_zero]
      refine Prod.ext ?_ ?_
      · simp only [List.cons.injEq, true_and]
        exact List.map_congr_left (fun i _ => by simp only [Function.comp]; congr 1; omega)
      · simp only [State.mk.injEq, true_and]; omega
  | cons x xs ih => simp only [List.map_cons, List.cons_append, fillDraws, ih]

theorem sum_sumValue (xs : List Byte) : ((xs.map some).map sumValue).sum = (xs.map BitVec.toNat).sum := by
  rw [List.map_map]; rfl

/-- R179 after the type byte, where the whole payload and the checksum byte are there: as R178. -/
theorem referenceBody_whole {s : State} (h : s.RingOk) {k : FrameKind} {c : Byte} {p rest : List Byte}
    (hq : s.contents = p ++ c :: rest) (hp : p.length = k.payloadLen) :
    referenceBody k s =
      if c = checksum (sentinel :: k.typeByte :: p) then
        s.removed (p.length + 1)
          { status := .ok, value := countValue (p.length + 3), data := p, frame := some (frameOf s.cfg.floatOrder k p) }
      else s.removed (p.length + 1) (plainResponse .badChecksum (countValue (p.length + 3)) []) := by
  have hlen : s.len = p.length + (rest.length + 1) := by rw [← s.contents_length, hq]; simp
  have hreads : (popBytes p.length s).1 = p.map some := by
    rw [popBytes_fst _ h, hq, show p.length - s.len = 0 by omega]; simp
  have hfill : ∀ u, fillDraws (p.map some) u = (p, u) := by
    intro u; simpa using fillDraws_eq p 0 u
  have hlast : (popByte (popBytes p.length s).2).1 = some c := by
    rw [popByte_fst, popBytes_contents _ h, hq]; simp
  have hst : (popByte (popBytes p.length s).2).2 = (popBytes (p.length + 1) s).2 := (popBytes_succ _ _).symm
  unfold referenceBody
  rw [← hp, hreads]
  simp only [hfill, hlast, hst, referenceMatch, sum_sumValue]
  have hcs : BitVec.ofNat 8 (255 - (sentinel.toNat + k.typeByte.toNat + (p.map BitVec.toNat).sum) % 256) =
      checksum (sentinel :: k.typeByte :: p) := by
    simp only [checksum, List.map_cons, List.sum_cons, Nat.add_assoc]
  rw [hcs]
  have hn : 2 + (bytesOf (p.map some)).length + (bytesOf [some c]).length = p.length + 3 := by
    simp [bytesOf, List.filterMap_map]; omega
  rw [hn, referenceAnswer, popBytes_snd _ h]
  by_cases hc : c = checksum (sentinel :: k.typeByte :: p)
  · simp only [hc, decide_true, if_true]; rfl
  · simp only [hc, decide_false, Bool.false_eq_true, if_false]; rfl

/-- R179 after the type byte, where the checksum byte is missing: everything held is consumed, each missing payload
byte is a draw, and so is the outcome of the comparison. -/
theorem referenceBody_short {s : State} (h : s.RingOk) {k : FrameKind} (hl : s.len ≤ k.payloadLen) :
    referenceBody k s =
      let m := k.payloadLen - s.len
      let p := s.contents ++ (List.range m).map (fun i => Config.drawByte (s.draws + i))
      let r : Response :=
        if Config.drawMatch (s.draws + m) then
          { status := .ok, value := countValue (2 + s.len), data := p, frame := some (frameOf s.cfg.floatOrder k p) }
        else plainResponse .badChecksum (countValue (2 + s.len)) []
      { s.removed s.len r with draws := s.draws + m + 1 } := by
  have hall : s.contents.take k.payloadLen = s.contents := List.take_of_length_le (by simpa using hl)
  have hreads : (popBytes k.payloadLen s).1 = s.contents.map some ++ List.replicate (k.payloadLen - s.len) none := by
    rw [popBytes_fst _ h, hall]
  have hpop : (popBytes k.payloadLen s).2 =
      { s with len := 0, lc := s.lc - BitVec.ofNat 32 (s.contents.count newline) } := by
    rw [popBytes_snd _ h, hall, show s.len - k.payloadLen = 0 by omega]
  have hn : (bytesOf (s.contents.map some ++ List.replicate (k.payloadLen - s.len) none)).length = s.len := by
    rw [← hreads, bytesOf_popBytes _ h, hall, s.contents_length]
  unfold referenceBody
  rw [hreads, hpop]
  have h0 : (bytesOf [none]).length = 0 := rfl
  simp only [fillDraws_eq, popByte, if_true, hn, h0, referenceMatch, drawMatch, referenceAnswer, Nat.add_zero]
  have ht : s.contents.take s.len = s.contents := List.take_of_length_le (by simp)
  by_cases hm : Config.drawMatch (s.draws + (k.payloadLen - s.len)) = true
  · simp only [hm, if_true, State.removed, ht, Nat.sub_self]; rfl
  · simp only [hm, Bool.false_eq_true, if_false, State.removed, ht, Nat.sub_self]; rfl

end Sys2Proof.Machine
end

