-- ==== Sys2Proof/Laws/Lines.lean ====
section
/-! SUPPORT. What the scan for a line finds, said on the logical sequence (rule R140). -/

namespace Sys2Proof.Machine

theorem firstLine_cons {b : Byte} {q : List Byte} (h : b ≠ newline) : firstLine (b :: q) = b :: firstLine q := by
  simp [firstLine, h]

theorem firstLine_length_le (q : List Byte) : (firstLine q).length ≤ q.length := (List.takeWhile_sublist _).length_le

/-- A first line is a beginning of the sequence. -/
theorem firstLine_eq_take (q : List Byte) : firstLine q = q.take (firstLine q).length :=
  List.prefix_iff_eq_take.1 (List.takeWhile_prefix _)

theorem newline_not_mem_firstLine (q : List Byte) : newline ∉ firstLine q := by
  intro h; have := List.mem_takeWhile_imp h; simp at this

/-- Behind the first line stands a newline, where the sequence holds one. -/
theorem getElem?_firstLine (q : List Byte) (h : newline ∈ q) : q[(firstLine q).length]? = some newline := by
  induction q with
  | nil => cases h
  | cons b q ih =>
    by_cases hb : b = newline
    · simp [firstLine, hb]
    · have hq : newline ∈ q := by
        rcases List.mem_cons.1 h with he | hm
        · exact absurd he.symm hb
        · exact hm
      simpa [firstLine, hb] using ih hq

theorem lineScan_eq (s : State) (n i : Nat) (h : i + n = s.len) :
    lineScan s n i = (i + (firstLine (s.contents.drop i)).length, decide (newline ∈ s.contents.drop i)) := by
  induction n generalizing i with
  | zero =>
    rw [List.drop_eq_nil_of_le (by simp; omega)]
    simp [lineScan, firstLine]
  | succ n ih =>
    have hi : i < s.contents.length := by simp; omega
    rw [lineScan, peekByte_eq, List.getElem?_eq_getElem hi, ih (i + 1) (by omega), List.drop_eq_getElem_cons hi]
    by_cases hb : s.contents[i] = newline
    · simp [hb, firstLine]
    · have hb' : newline ≠ s.contents[i] := fun h => hb h.symm
      rw [firstLine_cons hb, if_neg (by simpa using hb)]
      simp only [List.length_cons, List.mem_cons, hb', false_or]
      congr 1; omega

/-- `LineExtent()` on the logical sequence (R140). -/
theorem lineExtent_eq (s : State) : lineExtent s = ((firstLine s.contents).length, decide (newline ∈ s.contents)) := by
  rw [lineExtent, lineScan_eq s s.len 0 (by omega)]; simp

theorem textLen_eq (m : Half) (s : State) : textLen m s = min (firstLine s.contents).length (m.toNat - 1) := by
  rw [textLen, lineExtent_eq]

theorem lineSpan_eq (s : State) :
    lineSpan s = (firstLine s.contents).length + if newline ∈ s.contents then 1 else 0 := by
  rw [lineSpan, lineExtent_eq]; by_cases h : newline ∈ s.contents <;> simp [h]

theorem lineSpan_le (s : State) : lineSpan s ≤ s.len := by
  rw [lineSpan_eq, ← s.contents_length]
  split_ifs with h
  · exact (List.getElem?_eq_some_iff.1 (getElem?_firstLine s.contents h)).1
  · simpa using firstLine_length_le s.contents

/-- The text a line read returns, cut to the length it reports: the same for PEEKLINE and READLINE (R145). -/
theorem take_textLen (m : Half) (s : State) :
    s.contents.take (textLen m s) = (firstLine s.contents).take (m.toNat - 1) := by
  conv_rhs => rw [firstLine_eq_take, List.take_take]
  rw [textLen_eq, Nat.min_comm]

end Sys2Proof.Machine
end

