-- ==== Sys2Proof/Laws/PerInstr.lean ====
section
/-! SUPPORT. A property of every instruction as syntax, one lemma per constructor: the shape of its encoding. -/

namespace Sys2Proof.Laws.WordShape

/-- The opcode of each command (R61); none for a frame type, which has a type byte instead. -/
def opcode : Instr → Option (BitVec 4)
  | .add _      => some 0x1
  | .pop        => some 0x2
  | .peekat _   => some 0x3
  | .length     => some 0x4
  | .clear      => some 0x5
  | .lines      => some 0x6
  | .peekline _ => some 0x7
  | .readline _ => some 0x8
  | .hascmd     => some 0x9
  | .readcmd    => some 0xA
  | .recv _     => some 0xB
  | .reset      => some 0xC
  | .frameQ     => none
  | .frameA     => none
  | .frameG     => none
  | .frameM     => none
  | .frameL     => none
  | .frameB     => none

/-- A command is one word, with `rsv = 0` and the command's own opcode, and the data bytes of a RECV behind it (R60, R61,
R65); a frame type is a recognised type byte (R70). -/
def Statement (i : Instr) : Prop :=
  match encode i with
  | .port items  => ∃ w data, items = .word w :: data.map PortItem.data ∧ rsvField w = 0 ∧ opcode i = some (opField w) ∧
      (i = .recv data ∨ data = [])
  | .frameType t => opcode i = none ∧ decodeFrameType t = some i

/-- A command with no data bytes. -/
theorem of_word {i : Instr} {a : Half} {d : Byte} {o : BitVec 4} (h : encode i = .port [.word (cmdWord a d o)])
    (ho : opcode i = some o) : Statement i := by
  unfold Statement
  rw [h]
  exact ⟨_, [], rfl, rsvField_cmdWord _ _ _, by rw [opField_cmdWord]; exact ho, (.inr rfl)⟩

theorem add (b : Byte) : Statement (.add b) := of_word rfl rfl
theorem pop : Statement .pop := of_word rfl rfl
theorem peekat (index : Half) : Statement (.peekat index) := of_word rfl rfl
theorem length : Statement .length := of_word rfl rfl
theorem clear : Statement .clear := of_word rfl rfl
theorem lines : Statement .lines := of_word rfl rfl
theorem peekline (maxLen : Half) : Statement (.peekline maxLen) := of_word rfl rfl
theorem readline (maxLen : Half) : Statement (.readline maxLen) := of_word rfl rfl
theorem hascmd : Statement .hascmd := of_word rfl rfl
theorem readcmd : Statement .readcmd := of_word rfl rfl
theorem reset : Statement .reset := of_word rfl rfl
theorem frameQ : Statement .frameQ := ⟨rfl, rfl⟩
theorem frameA : Statement .frameA := ⟨rfl, rfl⟩
theorem frameG : Statement .frameG := ⟨rfl, rfl⟩
theorem frameM : Statement .frameM := ⟨rfl, rfl⟩
theorem frameL : Statement .frameL := ⟨rfl, rfl⟩
theorem frameB : Statement .frameB := ⟨rfl, rfl⟩

theorem recv (data : List Byte) : Statement (.recv data) :=
  ⟨_, data, rfl, rsvField_cmdWord _ _ _, by rw [opField_cmdWord]; rfl, (.inl rfl)⟩

end Sys2Proof.Laws.WordShape
end

