-- ==== Sys2Proof/Laws/Step.lean ====
section
/-! SUPPORT. Everything one step can do, said once: the cases of `step`, of `exec` and of a byte step of a RECV. -/

namespace Sys2Proof.Machine

@[simp] theorem removed_zero (s : State) (r : Response) : s.removed 0 r = s.answered r := by
  simp [State.removed, State.answered]

theorem respondByte_eq (x : Option Byte) (s : State) :
    ∃ r, respondByte x s = s.answered r := by
  cases x <;> exact ⟨_, rfl⟩

theorem respond_popBytes {s : State} (h : s.RingOk) (n : Nat) (st : Status) (v : Word) (d : List Byte) (f : Option Frame) :
    respond st v d f (popBytes n s).2 = s.removed n { status := st, value := v, data := d, frame := f } := by
  rw [popBytes_snd n h]; rfl

/-- After a removal the sequence is what was behind the bytes removed. -/
theorem removed_ringOk {s : State} (h : s.RingOk) (n : Nat) (r : Response) : (s.removed n r).RingOk :=
  ⟨h.1, h.2.1, le_trans (Nat.sub_le _ _) h.2.2⟩

/-- A READCMD's answer on a frame of a known kind, whatever the policy and whatever has arrived. -/
theorem takeFrameRobust_cases {s : State} (h : s.RingOk) (k : FrameKind) :
    ∃ n r, takeFrameRobust k s = s.removed n r := by
  unfold takeFrameRobust takeWholeFrame
  split_ifs
  · exact ⟨0, _, (removed_zero s _).symm⟩
  · dsimp only
    split_ifs <;> exact ⟨_, _, respond_popBytes h _ _ _ _ _⟩

theorem referenceBody_cases {s : State} (h : s.RingOk) (k : FrameKind) :
    ∃ n r d, referenceBody k s = { s.removed n r with draws := s.draws + d } := by
  rcases Nat.lt_or_ge k.payloadLen s.len with hl | hl
  · have hq : s.contents = s.contents.take k.payloadLen ++
        s.contents[k.payloadLen]'(by simpa using hl) :: s.contents.drop (k.payloadLen + 1) := by
      rw [List.getElem_cons_drop, List.take_append_drop]
    rw [referenceBody_whole h hq (by simp; omega)]
    split_ifs <;> exact ⟨_, _, 0, rfl⟩
  · rw [referenceBody_short h hl]
    exact ⟨_, _, k.payloadLen - s.len + 1, rfl⟩

theorem removed_popBytes {s : State} (h : s.RingOk) (m n : Nat) (r : Response) :
    ((popBytes m s).2).removed n r = s.removed (m + n) r := by
  have hc := popBytes_contents m h
  rw [popBytes_snd m h] at hc ⊢
  simp only [State.removed, hc, State.mk.injEq, true_and, and_true]
  constructor
  · omega
  · rw [List.take_add, List.count_append, BitVec.ofNat_add, BitVec.sub_sub]

theorem takeFrame_cases {s : State} (h : s.RingOk) (k : FrameKind) :
    ∃ n r d, takeFrame k s = { s.removed n r with draws := s.draws + d } := by
  unfold takeFrame
  split
  · obtain ⟨n, r, hr⟩ := takeFrameRobust_cases h k
    exact ⟨n, r, 0, by rw [hr]; rfl⟩
  · obtain ⟨n, r, d, hr⟩ := referenceBody_cases (popBytes_ringOk 2 h) k
    exact ⟨2 + n, r, d, by rw [hr, removed_popBytes h, popBytes_draws]⟩

theorem readcmdRobust_cases {s : State} (h : s.RingOk) : ∃ n r, readcmdRobust s = s.removed n r := by
  unfold readcmdRobust
  split_ifs
  · split
    · exact ⟨0, _, (removed_zero s _).symm⟩
    · split
      · exact ⟨2, _, respond_popBytes h 2 _ _ _ _⟩
      · exact takeFrameRobust_cases h _
  · exact ⟨0, _, (removed_zero s _).symm⟩

theorem readcmdReference_cases {s : State} (h : s.RingOk) :
    ∃ n r d, readcmdReference s = { s.removed n r with draws := s.draws + d } := by
  have h2 : (popByte (popByte s).2).2 = (popBytes 2 s).2 := rfl
  unfold readcmdReference
  rw [h2]
  split_ifs
  · split
    · exact ⟨2, _, 0, respond_popBytes h 2 _ _ _ _⟩
    · split
      · exact ⟨2, _, 0, respond_popBytes h 2 _ _ _ _⟩
      · obtain ⟨n, r, d, hr⟩ := referenceBody_cases (popBytes_ringOk 2 h) _
        exact ⟨2 + n, r, d, by rw [hr, removed_popBytes h, popBytes_draws]⟩
  · exact ⟨0, _, 0, by rw [removed_zero]; rfl⟩

/-- What an instruction's next state can be: some of the oldest bytes removed (none, for a read), some bytes appended,
the first byte step of a RECV, or the buffer emptied; each but the byte step with one response. -/
theorem exec_cases {i : Instr} {s t : State} (h : s.RingOk) (he : exec i s = .next t) :
    (∃ n r d, t = { s.removed n r with draws := s.draws + d }) ∨
    (∃ bs r, appendsOf s.cfg.N i = some bs ∧ bs.length ≤ s.cfg.N ∧ t = (pushBytes bs s).answered r) ∨
    (∃ data, i = .recv data ∧ s.cfg.recvAtomicity = .byte ∧
      t = recvStep { rest := appendedPart data s, total := (appendedPart data s).length } s) ∨
    (∃ r, i = .clear ∧ t = { s with len := 0, lc := 0, responses := s.responses ++ [r] }) ∨
    (∃ r, i = .reset ∧ t = { s with wi := 0, len := 0, lc := 0, responses := s.responses ++ [r] }) := by
  have hread : ∀ r : Response, ∃ n r' d, s.answered r = { s.removed n r' with draws := s.draws + d } :=
    fun r => ⟨0, r, 0, by rw [removed_zero]; rfl⟩
  cases i with
  | add b =>
    injection he with he; subst he
    exact .inr (.inl ⟨[b], _, rfl, s.cfg.N_pos, rfl⟩)
  | pop =>
    injection he with he; subst he
    have hp : (popByte s).2 = (popBytes 1 s).2 := rfl
    obtain ⟨r, hr⟩ := respondByte_eq (popByte s).1 (popByte s).2
    exact .inl ⟨1, r, 0, by rw [hr, hp, ← removed_zero, removed_popBytes h]; rfl⟩
  | peekat index =>
    injection he with he; subst he
    obtain ⟨r, hr⟩ := respondByte_eq (peekByte index.toNat s) s
    rw [hr]; exact .inl (hread r)
  | length => injection he with he; subst he; exact .inl (hread _)
  | clear => injection he with he; subst he; exact .inr (.inr (.inr (.inl ⟨_, rfl, rfl⟩)))
  | lines => injection he with he; subst he; exact .inl (hread _)
  | peekline m =>
    simp only [exec, execPeekline] at he
    split_ifs at he <;> (injection he with he; subst he; exact .inl (hread _))
  | readline m =>
    simp only [exec, execReadline] at he
    split_ifs at he
    · injection he with he; subst he; exact .inl (hread _)
    · injection he with he; subst he
      exact .inl ⟨lineSpan s, _, 0, respond_popBytes h _ _ _ _ _⟩
  | hascmd => injection he with he; subst he; exact .inl (hread _)
  | readcmd =>
    simp only [exec, execReadcmd] at he
    split at he <;> (injection he with he; subst he)
    · obtain ⟨n, r, hr⟩ := readcmdRobust_cases h
      exact .inl ⟨n, r, 0, by rw [hr]; rfl⟩
    · exact .inl (readcmdReference_cases h)
  | recv data =>
    simp only [exec, execRecv] at he
    split at he <;> (injection he with he; subst he)
    · exact .inr (.inl ⟨_, _, rfl, by simp, rfl⟩)
    · rename_i hb; exact .inr (.inr (.inl ⟨data, rfl, hb, rfl⟩))
  | reset => injection he with he; subst he; exact .inr (.inr (.inr (.inr ⟨_, rfl, rfl⟩)))
  | frameQ => injection he with he; subst he; exact .inl (takeFrame_cases h _)
  | frameA => injection he with he; subst he; exact .inl (takeFrame_cases h _)
  | frameG => injection he with he; subst he; exact .inl (takeFrame_cases h _)
  | frameM => injection he with he; subst he; exact .inl (takeFrame_cases h _)
  | frameL => injection he with he; subst he; exact .inl (takeFrame_cases h _)
  | frameB => injection he with he; subst he; exact .inl (takeFrame_cases h _)

/-- What a byte step of a RECV does: with two or more bytes left it appends one and goes on, with at most one it
appends what is left and answers (R45, R104). -/
theorem recvStep_cases (t : RecvTransfer) (s : State) :
    (∃ b c bs, t.rest = b :: c :: bs ∧
      recvStep t s = (pushByte b s).setTransfer (some { rest := c :: bs, total := t.total })) ∨
    (t.rest.length ≤ 1 ∧
      recvStep t s = ((pushBytes t.rest s).setTransfer none).answered (plainResponse .ok (countValue t.total) [])) := by
  obtain ⟨rest, total⟩ := t
  rcases rest with _ | ⟨b, _ | ⟨c, bs⟩⟩
  · exact .inr ⟨by simp, rfl⟩
  · exact .inr ⟨by simp, rfl⟩
  · exact .inl ⟨b, c, bs, rfl, rfl⟩

/-- The meaning of a frame type is the frame of its kind. -/
theorem exec_frameInstr (k : FrameKind) (s : State) : exec k.instr s = .next (takeFrame k s) := by
  rcases k with _ | t | _
  · rfl
  · cases t <;> rfl
  · rfl

/-- Replacing one agent's port leaves the other's. -/
theorem setPort_port_of_ne (s : State) {a b : Agent} (p : Port) (h : b ≠ a) : (s.setPort a p).port b = s.port b := by
  cases a <;> cases b <;> first | exact absurd rfl h | rfl

theorem State.port_congr {s t : State} (hp : t.producer = s.producer) (hc : t.consumer = s.consumer) (b : Agent) :
    t.port b = s.port b := by
  cases b
  · exact hp
  · exact hc

/-- What a byte step of a RECV leaves: the parameters, the schedule, the items still on the port, the other port. -/
theorem recvStep_outside (r : RecvTransfer) (s : State) :
    (recvStep r s).cfg = s.cfg ∧ (recvStep r s).schedule = s.schedule ∧ (recvStep r s).serving = s.serving ∧
      ((recvStep r s).port s.serving).queue = (s.port s.serving).queue ∧
      ∀ b, b ≠ s.serving → (recvStep r s).port b = s.port b := by
  rcases recvStep_cases r s with ⟨b, c, bs, h1, h2⟩ | ⟨h1, h2⟩
  · rw [h2]
    refine ⟨by simp, by simp, by simp, ?_, fun b hb => ?_⟩
    · rw [State.setTransfer, pushByte_serving, setPort_port, State.port_congr (s := s) (by simp) (by simp)]
    · rw [State.setTransfer, setPort_port_of_ne _ _ (by simpa using hb)]
      exact State.port_congr (by simp) (by simp) b
  · rw [h2]
    refine ⟨by simp [State.answered], by simp [State.answered], by simp [State.answered], ?_, fun b hb => ?_⟩
    · show ((State.setTransfer _ _).port _).queue = _
      rw [State.setTransfer, pushBytes_serving, setPort_port, State.port_congr (s := s) (by simp) (by simp)]
    · show (State.setTransfer _ _).port _ = _
      rw [State.setTransfer, setPort_port_of_ne _ _ (by simpa using hb)]
      exact State.port_congr (by simp) (by simp) b

theorem firstAppends_of_chunk {c : Config} (h : c.recvAtomicity = .chunk) (i : Instr) :
    firstAppends c i = (appendsOf c.N i).getD [] := by
  simp only [firstAppends, h]

theorem firstAppends_of_byte {c : Config} (h : c.recvAtomicity = .byte) (i : Instr) :
    firstAppends c i = ((appendsOf c.N i).getD []).take 1 := by
  simp only [firstAppends, h]

/-- Selecting a frame type for READCMD appends nothing either. -/
@[simp] theorem firstAppends_selectFrame (c : Config) (i : Instr) (s : State) :
    firstAppends c (selectFrame i s) = firstAppends c i := by
  unfold selectFrame
  split_ifs with h
  · subst h
    cases frameHead s with
    | none   => rfl
    | some k => rcases k with _ | g | _ <;> first | rfl | (cases g <;> rfl)
  · rfl

/-- The state a served agent's instruction runs on: its items taken from its port, the rest of the schedule to come. -/
theorem served_setQueue (s : State) (a : Agent) (es : List Event) (rest : List PortItem) (h : (s.port a).recv = none) :
    (s.served a es).setQueue a rest = { s.setPort a { queue := rest, recv := none } with schedule := es, serving := a } := by
  cases a <;> simp only [State.setQueue, State.setPort, State.served, State.port] at h ⊢ <;> rw [h]

/-- What a step that answers a next state did. -/
theorem step_cases {s t : State} (h : step s = .next t) :
    (s.schedule = [] ∧ t = s) ∨
    (∃ d es, s.schedule = .reset d :: es ∧ t = resetEvent d { s with schedule := es }) ∨
    (∃ a es, s.schedule = .serve a :: es ∧
      (t = s.served a es ∨
       (∃ r, (s.port a).recv = some r ∧ t = recvStep r (s.served a es)) ∨
       (∃ e rest, (s.port a).recv = none ∧ decode (s.port a).queue = .illegal e rest ∧
          t = illegalCommand ((s.served a es).setQueue a rest)) ∨
       (∃ i rest, (s.port a).recv = none ∧ decode (s.port a).queue = .instr i rest ∧
          exec (selectFrame i ((s.served a es).setQueue a rest)) ((s.served a es).setQueue a rest) = .next t))) := by
  unfold step at h
  split at h
  · rename_i hs; injection h with h; exact .inl ⟨hs, h.symm⟩
  · rename_i d es hs; injection h with h; exact .inr (.inl ⟨d, es, hs, h.symm⟩)
  · rename_i a es hs
    refine .inr (.inr ⟨a, es, hs, ?_⟩)
    unfold fetch at h
    rw [served_serving, served_port] at h
    cases hr : (s.port a).recv with
    | some r =>
      simp only [hr] at h
      injection h with h
      exact .inr (.inl ⟨r, rfl, h.symm⟩)
    | none =>
      simp only [hr] at h
      cases hd : decode (s.port a).queue with
      | instr i rest => simp only [hd] at h; exact .inr (.inr (.inr ⟨i, rest, rfl, rfl, h⟩))
      | illegal e rest => simp only [hd] at h; injection h with h; exact .inr (.inr (.inl ⟨e, rest, rfl, rfl, h.symm⟩))
      | incomplete => simp only [hd] at h; injection h with h; exact .inl h.symm
      | stray => simp only [hd] at h; cases h

end Sys2Proof.Machine
end

