-- ==== Sys2Proof/Tests/Slice0.lean ====
section
/-! SUPPORT. The author's own tests: the well-formedness smoke test, words decoded, single steps against the vectors of
spec/95_test_vectors.md (named V<n> and E<n> as there), and for each obligation with hypotheses a witness that meets
them. -/

namespace Sys2Proof.Tests

open Sys2Proof Sys2Proof.Machine

/-! ## Helpers -/

/-- The default policies with a capacity of `n + 1` bytes. -/
def cap (n : Fin 65535) : Config := { Config.default with capacityPred := n }

/-- The reset state of a block with these parameters. -/
def start (c : Config) : State := { State.reset with cfg := c }

/-- The state in which these bytes have been appended after reset. -/
def hold (c : Config) (bs : List Byte) : State := pushBytes bs (start c)

/-- The state with these items presented by the agent, which is served next. -/
def served (a : Agent) (items : List PortItem) (s : State) : State :=
  { s.setPort a { queue := items, recv := none } with schedule := [.serve a] }

/-- The last response and the bytes held after it. -/
def seen : Host.Outcome State Fault Refusal → Option (Response × List Byte)
  | .next s    => s.responses.getLast?.map (fun r => (r, s.contents))
  | .fault _   => none
  | .refused _ => none

/-- The registers `WI`, `LEN` and `LC` after a step. -/
def registers : Host.Outcome State Fault Refusal → Option (Nat × Nat × Word)
  | .next s    => some (s.wi, s.len, s.lc)
  | .fault _   => none
  | .refused _ => none

/-- A response with no frame. -/
def ans (st : Status) (v : Word) (d : List Byte) : Response := { status := st, value := v, data := d, frame := none }

/-- An `OK` response to READCMD: the bytes consumed, the payload, the record. -/
def framed (v : Word) (d : List Byte) (f : Frame) : Response := { status := .ok, value := v, data := d, frame := some f }

/-- Whether the machine goes on. -/
def goesOn : Host.Outcome State Fault Refusal → Bool
  | .next _    => true
  | .fault _   => false
  | .refused _ => false

/-! ## Well-formedness: ill-formed terms are refused (R62, R65) -/

theorem test_wf_refuses_peekline_zero : (Instr.peekline 0).wf = false := by decide
theorem test_wf_refuses_readline_zero : (Instr.readline 0).wf = false := by decide
theorem test_wf_refuses_recv_of_65536_bytes : (Instr.recv (List.replicate 65536 0)).wf = false := by
  rw [Instr.wf, List.length_replicate]; decide
theorem test_wf_takes_recv_of_65535_bytes : (Instr.recv (List.replicate 65535 0)).wf = true := by
  rw [Instr.wf, List.length_replicate]; decide

/-! ## Decoding: words written out from R60, R61 and R70 -/

theorem test_decode_add : decode [.word 0x00000501] = .instr (.add 0x05) [] := by decide
theorem test_decode_pop : decode [.word 0x00000002] = .instr .pop [] := by decide
theorem test_decode_peekat : decode [.word 0x00030003] = .instr (.peekat 3) [] := by decide
theorem test_decode_length : decode [.word 0x00000004] = .instr .length [] := by decide
theorem test_decode_clear : decode [.word 0x00000005] = .instr .clear [] := by decide
theorem test_decode_lines : decode [.word 0x00000006] = .instr .lines [] := by decide
theorem test_decode_peekline : decode [.word 0xFFFF0007] = .instr (.peekline 65535) [] := by decide
theorem test_decode_readline : decode [.word 0x000A0008] = .instr (.readline 10) [] := by decide
theorem test_decode_hascmd : decode [.word 0x00000009] = .instr .hascmd [] := by decide
theorem test_decode_readcmd : decode [.word 0x0000000A] = .instr .readcmd [] := by decide
theorem test_decode_recv : decode [.word 0x0003000B, .data 0x21, .data 0x42, .data 0x05, .word 0x00000004] =
    .instr (.recv [0x21, 0x42, 0x05]) [.word 0x00000004] := by decide
theorem test_decode_reset : decode [.word 0x0000000C] = .instr .reset [] := by decide
theorem test_decode_frame_types :
    [0x51#8, 0x41#8, 0x47#8, 0x4D#8, 0x4C#8, 0x42#8].map decodeFrameType =
      [some .frameQ, some .frameA, some .frameG, some .frameM, some .frameL, some .frameB] := by decide
theorem test_decode_no_other_frame_type : [0x00#8, 0x21#8, 0x43#8, 0x71#8, 0xFF#8].map decodeFrameType =
    [none, none, none, none, none] := by decide

/-- V2, V2a: reserved opcodes. -/
theorem test_decode_reserved_opcodes :
    [0x00000000#32, 0x0000000D#32, 0x0000000E#32, 0x0000000F#32].map (fun w => decode [.word w]) =
      List.replicate 4 (.illegal .reservedOpcode []) := by decide
/-- V2b to V2e and V2g: a reserved or unused field that is not zero; the data byte behind a bad RECV is left. -/
theorem test_decode_fields_not_zero :
    [0x00000012#32, 0x00010002#32, 0x00010001#32, 0x0000FF03#32, 0x0000010B#32].map
      (fun w => decode [.word w, .data 0xAA]) = List.replicate 5 (.illegal .fieldNotZero [.data 0xAA]) := by decide
/-- V2f. -/
theorem test_decode_zero_max_len : [0x00000007#32, 0x00000008#32].map (fun w => decode [.word w]) =
    List.replicate 2 (.illegal .zeroMaxLen []) := by decide

/-- The table's rows, numbered as the table numbers them. -/
theorem test_decode_table_words :
    decodeTableWord 32 0x00000501 = some (.add 5) ∧ decodeTableWord 32 0x0002000B = some (.recv [0, 0]) ∧
      decodeTableWord 8 0x51 = some .frameQ ∧ decodeTableWord 8 0x43 = none := by decide

/-! ## Single steps -/

/-- V4's last ADD: the full buffer loses its oldest byte. -/
theorem test_add_when_full : seen (exec (.add 6) (hold (cap 3) [1, 2, 3, 4, 5])) = some (ans .ok 0 [], [3, 4, 5, 6]) ∧
    registers (exec (.add 6) (hold (cap 3) [1, 2, 3, 4, 5])) = some (2, 4, 0) := by decide
/-- V15, V16: a newline evicted, under `FIX` and under `INHERIT`. -/
theorem test_add_evicts_newline :
    registers (exec (.add 0x64) (hold (cap 3) [0x0A, 0x61, 0x62, 0x63])) = some (1, 4, 0) ∧
      registers (exec (.add 0x64) (hold { cap 3 with lineEvict := .inherit } [0x0A, 0x61, 0x62, 0x63])) =
        some (1, 4, 1) := by decide
/-- V3. -/
theorem test_pop_empty : seen (exec .pop (start (cap 3))) = some (ans .empty 0xFFFFFFFF [], []) := by decide
/-- V7: the oldest byte, after the buffer has wrapped. -/
theorem test_pop_oldest : seen (exec .pop (hold (cap 3) [1, 2, 3, 4, 5, 6])) = some (ans .ok 3 [], [4, 5, 6]) := by decide
/-- V5. -/
theorem test_peekat_bounds :
    [0#16, 3#16, 4#16, 65535#16].map (fun i => seen (exec (.peekat i) (hold (cap 3) [1, 2, 3, 4, 5, 6]))) =
      [ans .ok 3 [], ans .ok 6 [], ans .empty 0xFFFFFFFF [], ans .empty 0xFFFFFFFF []].map
        (fun r => some (r, [3, 4, 5, 6])) := by decide
/-- V5. -/
theorem test_length_full : seen (exec .length (hold (cap 3) [1, 2, 3, 4, 5, 6])) = some (ans .ok 4 [], [3, 4, 5, 6]) := by
  decide
/-- V12: `WI` stays. -/
theorem test_clear : registers (exec .clear (hold (cap 15) [0x41, 0x42, 0x0A, 0x43, 0x44])) = some (5, 0, 0) := by decide
/-- V13. -/
theorem test_reset_command : registers (exec .reset (hold (cap 15) [0x41, 0x42, 0x0A])) = some (0, 0, 0) := by decide
/-- V20. -/
theorem test_lines : seen (exec .lines (hold (cap 15) [0x41, 0x42, 0x0A, 0x43, 0x44])) =
    some (ans .ok 1 [], [0x41, 0x42, 0x0A, 0x43, 0x44]) := by decide
/-- V21. -/
theorem test_peekline_cuts : seen (exec (.peekline 3) (hold (cap 15) [0x68, 0x65, 0x6C, 0x6C, 0x6F, 0x0A, 0x58])) =
    some (ans .ok 2 [0x68, 0x65, 0x00], [0x68, 0x65, 0x6C, 0x6C, 0x6F, 0x0A, 0x58]) := by decide
/-- V26. -/
theorem test_peekline_one : seen (exec (.peekline 1) (hold (cap 15) [0x41, 0x42, 0x0A, 0x43, 0x44])) =
    some (ans .ok 0 [0x00], [0x41, 0x42, 0x0A, 0x43, 0x44]) := by decide
/-- V22: the rest of the line is discarded. -/
theorem test_readline_cuts : seen (exec (.readline 3) (hold (cap 15) [0x68, 0x65, 0x6C, 0x6C, 0x6F, 0x0A, 0x58])) =
    some (ans .ok 2 [0x68, 0x65, 0x00], [0x58]) := by decide
/-- V23 to V25 and V27: an empty buffer, an empty line, no newline, a zero byte in the text. -/
theorem test_readline_corners :
    [[], [0x0A, 0x58], [0x43, 0x44], [0x41, 0x00, 0x42, 0x0A]].map (fun q => seen (exec (.readline 10) (hold (cap 15) q))) =
      [some (ans .ok 0 [0x00], []), some (ans .ok 0 [0x00], [0x58]), some (ans .ok 2 [0x43, 0x44, 0x00], []),
       some (ans .ok 3 [0x41, 0x00, 0x42, 0x00], [])] := by decide
/-- V31, V33 and the empty buffer. -/
theorem test_hascmd : [[0x21], [0x20, 0x42], []].map (fun q => seen (exec .hascmd (hold (cap 15) q))) =
    [some (ans .ok 1 [], [0x21]), some (ans .ok 0 [], [0x20, 0x42]), some (ans .ok 0 [], [])] := by decide
/-- V30 to V39: every outcome but `OK`, by the robust policy. -/
theorem test_readcmd_outcomes :
    [[], [0x21], [0x21, 0x42, 0x05], [0x20, 0x42, 0x05, 0x09, 0x8E], [0x21, 0x43, 0x05, 0x09, 0x8E],
     [0x21, 0x42, 0x04, 0x09, 0x8E], [0x21, 0x42, 0x05, 0x09, 0x8F], [0x21, 0x41, 0x05, 0x09, 0x8E]].map
        (fun q => seen (exec .readcmd (hold (cap 15) q))) =
      [some (ans .noCmd 0 [], []), some (ans .insufficient 0 [], [0x21]),
       some (ans .insufficient 0 [], [0x21, 0x42, 0x05]), some (ans .noCmd 0 [], [0x20, 0x42, 0x05, 0x09, 0x8E]),
       some (ans .badType 2 [], [0x05, 0x09, 0x8E]), some (ans .badChecksum 5 [], []), some (ans .badChecksum 5 [], []),
       some (ans .insufficient 0 [], [0x21, 0x41, 0x05, 0x09, 0x8E])] := by decide
/-- E4, V47, V49: the frame of E4; a payload of sentinels with a byte behind it; a frame that wraps. -/
theorem test_readcmd_ok :
    seen (exec .readcmd (hold (cap 15) [0x21, 0x42, 0x05, 0x09, 0x8E])) =
      some (framed 5 [0x05, 0x09] (.controlPad 0x05 0x09), []) ∧
    seen (exec .readcmd (hold (cap 15) [0x21, 0x42, 0x21, 0x21, 0x5A, 0x07])) =
      some (framed 5 [0x21, 0x21] (.controlPad 0x21 0x21), [0x07]) ∧
    seen (exec .readcmd (pushBytes [0x21, 0x42, 0x05, 0x09, 0x8E] (popBytes 6 (hold (cap 7) [1, 2, 3, 4, 5, 6])).2)) =
      some (framed 5 [0x05, 0x09] (.controlPad 0x05 0x09), []) := by decide
/-- V50, V52, V53: the reference policy where nothing is drawn. -/
theorem test_readcmd_reference :
    [[0x21], [0x21, 0x42, 0x05, 0x09, 0x8E], [0x30]].map
        (fun q => seen (exec .readcmd (hold { cap 15 with shortFrame := .reference } q))) =
      [some (ans .badType 1 [], []), some (framed 5 [0x05, 0x09] (.controlPad 0x05 0x09), []),
       some (ans .noCmd 0 [], [0x30])] := by decide
/-- V9: a chunk longer than the buffer. -/
theorem test_recv_longer_than_buffer : seen (exec (.recv [1, 2, 3, 4, 5, 6]) (hold (cap 3) [9, 9])) =
    some (ans .ok 4 [], [1, 2, 3, 4]) ∧ registers (exec (.recv [1, 2, 3, 4, 5, 6]) (hold (cap 3) [9, 9])) =
    some (2, 4, 0) := by decide
/-- V10, V14. -/
theorem test_recv_corners : seen (exec (.recv []) (start (cap 7))) = some (ans .ok 0 [], []) ∧
    registers (exec (.recv [0x0A, 0x61, 0x62, 0x63, 0x64]) (start (cap 3))) = some (0, 4, 1) := by decide

/-- V43. -/
theorem test_frameQ : seen (exec .frameQ (hold (cap 31) ([0x21, 0x51, 0x00, 0x00, 0x80, 0x3F] ++ List.replicate 12 0 ++ [0xCE]))) =
    some (framed 19 ([0x00, 0x00, 0x80, 0x3F] ++ List.replicate 12 0) (.quaternion 0x3F800000 0 0 0), []) := by decide
/-- V41, V42: both byte orders. -/
theorem test_frameA_orders :
    [FloatOrder.le, FloatOrder.be].map (fun o => seen (exec .frameA (hold { cap 31 with floatOrder := o }
        [0x21, 0x41, 0x00, 0x00, 0x80, 0x3F, 0, 0, 0, 0, 0x00, 0x00, 0x80, 0xBF, 0x9F]))) =
      [Frame.vector3 .accel 0x3F800000 0x00000000 0xBF800000, Frame.vector3 .accel 0x0000803F 0x00000000 0x000080BF].map
        (fun f => some (framed 15 [0x00, 0x00, 0x80, 0x3F, 0, 0, 0, 0, 0x00, 0x00, 0x80, 0xBF] f, [])) := by decide
/-- V44. -/
theorem test_frameG : seen (exec .frameG (hold (cap 31) ([0x21, 0x47] ++ List.replicate 12 0 ++ [0x97]))) =
    some (framed 15 (List.replicate 12 0) (.vector3 .gyro 0 0 0), []) := by decide
/-- V45. -/
theorem test_frameM : seen (exec .frameM (hold (cap 31) ([0x21, 0x4D] ++ List.replicate 12 0 ++ [0x91]))) =
    some (framed 15 (List.replicate 12 0) (.vector3 .mag 0 0 0), []) := by decide
/-- V46. -/
theorem test_frameL : seen (exec .frameL (hold (cap 31) ([0x21, 0x4C] ++ List.replicate 12 0 ++ [0x92]))) =
    some (framed 15 (List.replicate 12 0) (.vector3 .location 0 0 0), []) := by decide
/-- V40: two newlines in the payload are counted out. -/
theorem test_frameB_counts_newlines_out :
    (hold (cap 31) [0x21, 0x42, 0x0A, 0x0A, 0x88]).lc = 2 ∧
      seen (exec .frameB (hold (cap 31) [0x21, 0x42, 0x0A, 0x0A, 0x88])) =
        some (framed 5 [0x0A, 0x0A] (.controlPad 0x0A 0x0A), []) ∧
      registers (exec .frameB (hold (cap 31) [0x21, 0x42, 0x0A, 0x0A, 0x88])) = some (5, 0, 0) := by decide

/-- The codes of R67, and the widths of R12 for the smallest block and for `N = 32`. -/
theorem test_status_codes : [Status.ok, .empty, .noCmd, .insufficient, .badType, .badChecksum, .illegal].map Status.code =
    [0, 1, 2, 3, 4, 5, 7] := by decide
theorem test_widths : (cap 0).idxW = 1 ∧ (cap 0).lenW = 1 ∧ (cap 31).idxW = 5 ∧ (cap 31).lenW = 6 := by decide

/-- The checksums of section 2.3. -/
theorem test_checksums :
    checksum [0x21, 0x42, 0x05, 0x09] = 0x8E ∧ checksum [0x21, 0x42, 0x00, 0x00] = 0x9C ∧
      checksum [0x21, 0x42, 0xFF, 0xFF] = 0x9E ∧ checksum [0x21, 0x42, 0x21, 0x21] = 0x5A := by decide

/-- V51: a draw decides between `OK` and `BAD_CHECKSUM`; either way 3 bytes are consumed and the payload is `[5, draw]`. -/
theorem test_readcmd_reference_draws :
    seen (exec .readcmd (hold { cap 15 with shortFrame := .reference } [0x21, 0x42, 0x05])) =
      some (if Config.drawMatch 1 = true then
          framed 3 [0x05, Config.drawByte 0] (.controlPad 0x05 (Config.drawByte 0))
        else ans .badChecksum 3 [], []) := by
  show seen (.next (referenceBody .controlPad (popBytes 2 (hold { cap 15 with shortFrame := .reference } [0x21, 0x42, 0x05])).2)) = _
  rw [referenceBody_short (by decide) (by decide)]
  show some (if Config.drawMatch 1 = true then _ else _, _) = _
  split_ifs <;> rfl

/-! ## Witnesses: states and operands that meet the hypotheses of each obligation, clause by clause -/

/-- A block under `REFERENCE`. -/
def refCap (n : Fin 65535) : Config := { cap n with shortFrame := .reference }

/-- A block under `BYTE`. -/
def byteCap (n : Fin 65535) : Config := { cap n with recvAtomicity := .byte }

/-- The frame of E4. -/
def goodFrame : List Byte := [0x21, 0x42, 0x05, 0x09, 0x8E]

/-- What `n` steps lead to, from where an instruction led. -/
def thenRun (n : Nat) : Host.Outcome State Fault Refusal → Host.Outcome State Fault Refusal
  | .next s    => runSteps n s
  | .fault r   => .fault r
  | .refused r => .refused r

/-- Every state that `hold` builds meets the invariant. -/
theorem test_hold_inv (c : Config) (bs : List Byte) : (hold c bs).Inv := by
  have h : (start c).RingOk := ⟨rfl, c.N_pos, Nat.zero_le _⟩
  obtain ⟨h1, h2, h3⟩ := pushBytes_ringOk bs h
  refine ⟨h1, ?_, h2, h3, ?_, ?_⟩
  · rw [hold, pushBytes_cfg]
    exact pushBytes_slots bs (fun x hx => absurd hx (List.not_mem_nil))
  · rw [hold, pushBytes_producer]; rfl
  · rw [hold, pushBytes_consumer]; rfl

/-- A state with a RECV in progress on the Producer's port, which is served next. -/
def midRecv (rest : List Byte) (total : Nat) (s : State) : State :=
  { s with producer := { queue := [], recv := some { rest := rest, total := total } }, schedule := [.serve .producer] }

theorem test_witness_DecodeOfEncodeIsTheInstruction :
    (Instr.readline 1).wf = true ∧ (Instr.peekline 0xFFFF).wf = true ∧ (Instr.add 0xFF).wf = true ∧
      (Instr.recv []).wf = true ∧ Instr.frameB.wf = true := by decide

theorem test_witness_PortReadsExactlyTheEncodedCommands :
    decode (encodeItems (.recv [1, 2]) ++ [.word 0x2]) = .instr (.recv [1, 2]) [.word 0x2] ∧
      (Instr.recv [1, 2]).wf = true ∧ (Instr.recv [1, 2]).isCommand = true := by decide

/-- Each way a word spells no command, at the edges of the fields. -/
theorem test_witness_words_that_spell_no_command :
    ∀ w ∈ [0x00000012#32, 0x00000000#32, 0x0000000D#32, 0x0000FF03#32, 0x00010002#32, 0x00000007#32, 0x00000008#32],
      SpellsNoCommand w := by
  intro w hw; fin_cases hw <;> decide

theorem test_witness_words_that_spell_a_command :
    ∀ w ∈ [0x00000002#32, 0x00010007#32, 0x0000FF01#32, 0xFFFF000B#32], ¬ SpellsNoCommand w := by
  intro w hw; fin_cases hw <;> decide

theorem test_witness_IllegalWordAnswersIllegalAndChangesNothing :
    (served .consumer [.word 0x12, .data 7] (hold (cap 3) [1])).schedule = .serve .consumer :: [] ∧
      ((served .consumer [.word 0x12, .data 7] (hold (cap 3) [1])).port .consumer).recv = none ∧
      ((served .consumer [.word 0x12, .data 7] (hold (cap 3) [1])).port .consumer).queue = .word 0x12 :: [.data 7] ∧
      seen (step (served .consumer [.word 0x12, .data 7] (hold (cap 3) [1]))) = some (ans .illegal 0 [], [1]) := by decide

theorem test_witness_StepRunsTheDecodedInstruction :
    (served .consumer [.word 0xA, .word 0x2] (hold (cap 15) goodFrame)).schedule = [.serve .consumer] ∧
      ((served .consumer [.word 0xA, .word 0x2] (hold (cap 15) goodFrame)).port .consumer).recv = none ∧
      decode ((served .consumer [.word 0xA, .word 0x2] (hold (cap 15) goodFrame)).port .consumer).queue =
        .instr .readcmd [.word 0x2] ∧
      frameHead (hold (cap 15) goodFrame) = some .controlPad := by decide

theorem test_witness_StepsThatRunNoInstruction :
    (start (cap 3)).schedule = [] ∧ ((midRecv [1, 2] 3 (start (byteCap 3))).port .producer).recv.isSome = true ∧
      decode ((served .producer [.word 0x0002000B, .data 1] (start (cap 3))).port .producer).queue = .incomplete ∧
      decode ((served .consumer [] (start (cap 3))).port .consumer).queue = .incomplete ∧
      decode ((served .producer [.data 1] (start (cap 3))).port .producer).queue = .stray ∧
      decode ((served .producer [.word 0x0002000B, .word 2] (start (cap 3))).port .producer).queue = .stray := by decide

theorem test_witness_ReadcmdIsTheFrameTypeItSelects :
    (hold (cap 15) goodFrame).Inv ∧ frameHead (hold (cap 15) goodFrame) = some .controlPad ∧
      (hold (refCap 3) [0x21, 0x51]).Inv ∧ frameHead (hold (refCap 3) [0x21, 0x51]) = some .quaternion ∧
      (hold (cap 3) [0x21, 0x4C]).Inv ∧ frameHead (hold (cap 3) [0x21, 0x4C]) = some (.vector3 .location) := by decide

theorem test_witness_StepsKeepEachAgentsOrder :
    goesOn (step (served .consumer [.word 0x2, .word 0x4] (hold (cap 3) [1]))) = true ∧
      goesOn (step (midRecv [1, 2] 3 (start (byteCap 3)))) = true := by decide

theorem test_witness_EveryInstructionCompletesWithOneResponse :
    (start (cap 3)).cfg.recvAtomicity = .chunk ∧ (start (byteCap 3)).cfg.recvAtomicity = .byte ∧
      goesOn (exec .pop (start (byteCap 3))) = true := by decide

/-- A buffer with room, a full one with a newline at its head under each policy, and the buffer of one byte (V8). -/
theorem test_witness_AddAppendsOneByte :
    (hold (cap 3) [9]).Inv ∧ (hold (cap 3) [0x0A, 1, 2, 3]).Inv ∧ (hold (cap 3) [0x0A, 1, 2, 3]).len = 4 ∧
      (hold (cap 3) [0x0A, 1, 2, 3]).contents.head? = some newline ∧
      (hold { cap 3 with lineEvict := .inherit } [0x0A, 1, 2, 3]).Inv ∧ (hold (cap 0) [0x41]).Inv := by decide

/-- A chunk longer than the buffer, one that just fits, an empty one; with bytes lost and without. -/
theorem test_witness_ChunkRecvAppendsItsFirstBytes :
    (hold (cap 3) [9, 9]).Inv ∧ (hold (cap 3) [9, 9]).cfg.recvAtomicity = .chunk ∧
      seen (exec (.recv [1, 2, 3, 4, 5]) (hold (cap 3) [9, 9])) = some (ans .ok 4 [], [1, 2, 3, 4]) ∧
      seen (exec (.recv [1, 2]) (hold (cap 3) [9, 9])) = some (ans .ok 2 [], [9, 9, 1, 2]) ∧
      seen (exec (.recv []) (hold (cap 3) [9, 9])) = some (ans .ok 0 [], [9, 9]) := by decide

/-- A Producer with this RECV on its port, served so many times. -/
def byteRecv (data : List Byte) (n : Nat) : State :=
  { served .producer (encodeItems (.recv data)) (hold (byteCap 1) [9]) with schedule := List.replicate n (.serve .producer) }

/-- A chunk longer than the buffer, and an empty one. -/
theorem test_witness_ByteRecvServedWholeEqualsChunkRecv :
    (byteRecv [1, 2, 3] 2).Inv ∧ (byteRecv [1, 2, 3] 2).cfg.recvAtomicity = .byte ∧
      ((byteRecv [1, 2, 3] 2).port .producer).recv = none ∧
      decode ((byteRecv [1, 2, 3] 2).port .producer).queue = .instr (.recv [1, 2, 3]) [] ∧
      (byteRecv [1, 2, 3] 2).schedule = List.replicate (max 1 (min 3 (byteRecv [1, 2, 3] 2).cfg.N)) (.serve .producer) ∧
      seen (runSteps 2 (byteRecv [1, 2, 3] 2)) = some (ans .ok 2 [], [1, 2]) ∧
      decode ((byteRecv [] 1).port .producer).queue = .instr (.recv []) [] ∧
      (byteRecv [] 1).schedule = List.replicate (max 1 (min 0 (byteRecv [] 1).cfg.N)) (.serve .producer) ∧
      seen (runSteps 1 (byteRecv [] 1)) = some (ans .ok 0 [], [9]) := by decide

/-- The first step of a RECV longer than the buffer, of one byte and of none; then, in progress, a byte that is not the
last, on a full buffer, and the last one. -/
theorem test_witness_ByteStepAppendsOneByteAndOnlyTheLastAnswers :
    (byteRecv [1, 2, 3] 1).Inv ∧ (byteRecv [1, 2, 3] 1).schedule = .serve .producer :: [] ∧
      (byteRecv [1, 2, 3] 1).cfg.recvAtomicity = .byte ∧ ((byteRecv [1, 2, 3] 1).port .producer).recv = none ∧
      decode ((byteRecv [1, 2, 3] 1).port .producer).queue = .instr (.recv [1, 2, 3]) [] ∧
      [1#8, 2#8, 3#8].take (byteRecv [1, 2, 3] 1).cfg.N = 1 :: [2] ∧
      decode ((byteRecv [7] 1).port .producer).queue = .instr (.recv [7]) [] ∧
      decode ((byteRecv [] 1).port .producer).queue = .instr (.recv []) [] ∧
      (midRecv [1, 2] 3 (hold (byteCap 3) [6, 7, 8, 9])).Inv ∧ (midRecv [2] 3 (hold (byteCap 3) [9])).Inv ∧
      (midRecv [2] 3 (hold (byteCap 3) [9])).schedule = .serve .producer :: [] ∧
      ((midRecv [1, 2] 3 (start (byteCap 3))).port .producer).recv = some { rest := 1 :: [2], total := 3 } := by decide

/-- R104: after the first byte step the prefix of one byte shows, the rest is in progress and nothing is answered. -/
theorem test_recv_first_byte_step :
    (match step (byteRecv [1, 2, 3] 1) with
      | .next s    => some (s.contents, s.producer.recv, s.responses)
      | .fault _   => none
      | .refused _ => none) = some ([9, 1], some { rest := [2], total := 2 }, []) := by decide

theorem test_witness_PopReturnsTheOldestByte :
    (start (cap 3)).Inv ∧ (start (cap 3)).contents = [] ∧ (hold (cap 3) [0x0A, 7]).Inv ∧
      (hold (cap 3) [0x0A, 7]).contents = 0x0A :: [7] ∧ (hold (cap 0) [7]).contents = 7 :: [] := by decide

/-- The last position in the buffer, the first beyond it, and the largest operand. -/
theorem test_witness_PeekatReadsTheByteAsked :
    (hold (cap 3) [5, 6]).contents[(1 : Half).toNat]? = some 6 ∧ (hold (cap 3) [5, 6]).len ≤ (2 : Half).toNat ∧
      (hold (cap 3) [5, 6]).len ≤ (65535 : Half).toNat := by decide

theorem test_witness_LengthReturnsTheLength :
    (hold (cap 3) [1, 2, 3, 4]).Inv ∧ (start (cap 65534)).Inv ∧ (start (cap 0)).Inv := by decide

theorem test_witness_ClearAndResetAnswerAlikeEverAfter :
    (served .consumer [.word 0x2] (hold (cap 3) [1, 2])).Inv ∧
      goesOn (exec .reset (served .consumer [.word 0x2] (hold (cap 3) [1, 2]))) = true ∧
      goesOn (thenRun 1 (exec .clear (served .consumer [.word 0x2] (hold (cap 3) [1, 2])))) = true := by decide

theorem test_witness_RemovalLeavesTheRestInOrder :
    (hold (cap 3) [1, 2, 3, 4, 5]).Inv ∧
      ((hold (cap 3) [1, 2, 3, 4, 5]).removed 3 (ans .ok 0 [])).contents = [5] := by decide

theorem test_witness_LengthLawOfAppends :
    (start (cap 1)).Inv ∧ (start (cap 1)).len = 0 ∧ (start (cap 1)).cfg.recvAtomicity = .chunk ∧
      (∀ i ∈ [Instr.add 1, .recv [2, 3, 4], .recv []], (appendsOf (start (cap 1)).cfg.N i).isSome = true) ∧
      (start (byteCap 1)).Inv ∧ (start (byteCap 1)).len = 0 ∧
      (∀ i ∈ [Instr.add 1, .add 2, .add 3], (appendsOf (start (byteCap 1)).cfg.N i).isSome = true) ∧
      [1#8, 2#8, 3#8].map Instr.add = [Instr.add 1, .add 2, .add 3] := by decide

theorem test_witness_RoundTripLawOfAppendsAndPops :
    (start (cap 1)).Inv ∧ (start (cap 1)).len = 0 ∧ [0x0A#8, 7#8].length ≤ (start (cap 1)).cfg.N := by decide

/-- A full buffer that has wrapped, one with room, an empty one. -/
theorem test_witness_ReadPointerIsDerivedFromWiAndLen :
    (hold (cap 3) [1, 2, 3, 4, 5]).Inv ∧ (hold (cap 3) [1, 2, 3, 4, 5]).len = (cap 3).N ∧
      (hold (cap 3) [1, 2, 3, 4, 5]).contents = 2 :: [3, 4, 5] ∧ (start (cap 3)).len = 0 ∧
      (hold (cap 3) [1, 2]).len ≠ (cap 3).N ∧ (hold (cap 3) [1, 2]).readSlot = 0 := by decide

theorem test_witness_OnlyAppendsWriteStorage :
    (hold (cap 3) [1, 2]).Inv ∧ appendsOf 4 .pop = none ∧ appendsOf 4 .reset = none ∧ appendsOf 4 .frameB = none ∧
      goesOn (exec .frameB (hold (cap 3) [1, 2])) = true := by decide

theorem test_witness_LinesReturnsTheLineCount : (hold (cap 3) [0x0A, 7, 0x0A]).LineCountExact := by decide

/-- `maxLen = 0`, and the least and the greatest other. -/
theorem test_witness_PeeklineReturnsTheFirstLine :
    seen (exec (.peekline 0) (hold (cap 7) [0x41, 0x0A])) = some (ans .illegal 0 [], [0x41, 0x0A]) ∧
      (1 : Half) ≠ 0 ∧ (0xFFFF : Half) ≠ 0 := by decide

/-- `maxLen = 0`, a line cut short, and a buffer with no newline. -/
theorem test_witness_ReadlineReturnsAndRemovesTheFirstLine :
    (hold (cap 7) [0x41, 0x42, 0x0A, 0x43]).Inv ∧ newline ∈ (hold (cap 7) [0x41, 0x42, 0x0A, 0x43]).contents ∧
      newline ∉ (hold (cap 7) [0x41, 0x42]).contents ∧ lineAndEnd [0x41, 0x42, 0x0A, 0x43] = 3 ∧
      lineAndEnd [0x41, 0x42] = 2 ∧ (1 : Half) ≠ 0 ∧ (0xFFFF : Half) ≠ 0 ∧
      seen (exec (.readline 0) (hold (cap 7) [0x41, 0x0A])) = some (ans .illegal 0 [], [0x41, 0x0A]) := by decide

theorem test_witness_TruncationLawOfLineReads :
    (hold (cap 7) [0x41, 0x42, 0x0A, 0x43]).Inv ∧ (1 : Half) ≠ 0 ∧
      goesOn (exec (.readline 1) (hold (cap 7) [0x41, 0x42, 0x0A, 0x43])) = true := by decide

/-- The first payload byte, and the checksum byte. -/
theorem test_witness_WholeFrameSumIs255 :
    wholeFrame .controlPad [0x05, 0x09] = goodFrame ∧ [0x05#8, 0x09#8].length = FrameKind.controlPad.payloadLen ∧
      (wholeFrame .controlPad [0x05, 0x09])[2]? ≠ some 0x04 ∧ (wholeFrame .controlPad [0x05, 0x09])[4]? ≠ some 0x8F ∧
      [0x05#8, 0x09#8].length + 3 = 5 := by decide

theorem test_witness_WordAssemblyByFloatOrder :
    4 + 4 ≤ [1#8, 2#8, 3#8, 4#8, 5#8, 6#8, 7#8, 8#8].length ∧
      wordAt .le [1, 2, 3, 4, 5, 6, 7, 8] 4 = 0x08070605 ∧ wordAt .be [1, 2, 3, 4, 5, 6, 7, 8] 4 = 0x05060708 := by decide

/-- Each row of the table; a frame one byte short; a whole frame with a byte behind it, right and wrong. -/
theorem test_witness_ReadcmdRobustOutcomes :
    (hold (cap 15) goodFrame).Inv ∧ (hold (cap 15) goodFrame).cfg.shortFrame = .robust ∧
      (start (cap 15)).contents.head? ≠ some sentinel ∧ (hold (cap 15) [0x42]).contents.head? ≠ some sentinel ∧
      (hold (cap 15) [0x21]).contents = [sentinel] ∧
      (hold (cap 15) [0x21, 0x43]).contents = sentinel :: 0x43 :: [] ∧ payloadLen 0x43 = none ∧
      (hold (cap 15) [0x21, 0x42, 5, 9]).contents = sentinel :: FrameKind.controlPad.typeByte :: [5, 9] ∧
      (hold (cap 15) [0x21, 0x42, 5, 9]).len < FrameKind.controlPad.payloadLen + 3 ∧
      (hold (cap 15) (goodFrame ++ [7])).contents = sentinel :: FrameKind.controlPad.typeByte :: ([5, 9] ++ 0x8E :: [7]) ∧
      0x8E = checksum (sentinel :: FrameKind.controlPad.typeByte :: [5, 9]) ∧
      0x8F ≠ checksum (sentinel :: FrameKind.controlPad.typeByte :: [5, 9]) := by decide

/-- As above under `REFERENCE`, with no payload byte there, and with all of them but no checksum byte. -/
theorem test_witness_ReadcmdReferenceOutcomes :
    (hold (refCap 15) goodFrame).Inv ∧ (hold (refCap 15) goodFrame).cfg.shortFrame = .reference ∧
      (hold (refCap 15) [0x42]).contents.head? ≠ some sentinel ∧ (hold (refCap 15) [0x21]).contents = [sentinel] ∧
      (hold (refCap 15) [0x21, 0x43]).contents = sentinel :: 0x43 :: [] ∧ payloadLen 0x43 = none ∧
      (hold (refCap 15) [0x21, 0x42]).contents = sentinel :: FrameKind.controlPad.typeByte :: [] ∧
      ([] : List Byte).length ≤ FrameKind.controlPad.payloadLen ∧ [5#8, 9#8].length ≤ FrameKind.controlPad.payloadLen ∧
      (hold (refCap 15) [0x21, 0x42, 5, 9]).contents = sentinel :: FrameKind.controlPad.typeByte :: [5, 9] ∧
      (hold (refCap 15) goodFrame).contents = sentinel :: FrameKind.controlPad.typeByte :: ([5, 9] ++ 0x8E :: []) ∧
      0x8E = checksum (sentinel :: FrameKind.controlPad.typeByte :: [5, 9]) ∧
      0x8F ≠ checksum (sentinel :: FrameKind.controlPad.typeByte :: [5, 9]) := by decide

theorem test_witness_FrameTypesTakeTheirFrame :
    (hold (refCap 15) goodFrame).Inv ∧
      (hold (refCap 15) goodFrame).contents = sentinel :: FrameKind.controlPad.typeByte :: ([5, 9] ++ 0x8E :: []) ∧
      (hold (cap 15) [0x21, 0x42, 5, 9]).Inv ∧ (hold (cap 15) [0x21, 0x42, 5, 9]).cfg.shortFrame = .robust ∧
      (hold (cap 15) [0x21, 0x42, 5, 9]).len < FrameKind.controlPad.payloadLen + 3 ∧
      (start (cap 15)).len < FrameKind.controlPad.payloadLen + 3 := by decide

/-- E5 and V33 to V38: the frame whole; a payload byte, the checksum, the sentinel and the type byte changed. -/
theorem test_witness_CorruptionLawOfFrames :
    (hold (cap 15) goodFrame).Inv ∧ (hold (cap 15) goodFrame).cfg.shortFrame = .robust ∧
      (hold (cap 15) (goodFrame ++ [7])).contents = wholeFrame .controlPad [5, 9] ++ [7] ∧
      (hold (cap 15) [0x21, 0x42, 4, 9, 0x8E]).contents = (wholeFrame .controlPad [5, 9]).set 2 4 ++ [] ∧
      (wholeFrame .controlPad [5, 9])[2]? ≠ some 4 ∧ (wholeFrame .controlPad [5, 9])[4]? ≠ some 0x8F ∧
      (hold (cap 15) [0x20, 0x42, 5, 9, 0x8E]).contents = (wholeFrame .controlPad [5, 9]).set 0 0x20 ++ [] ∧
      (hold (cap 15) [0x21, 0x43, 5, 9, 0x8E]).contents = (wholeFrame .controlPad [5, 9]).set 1 0x43 ++ [] ∧
      payloadLen 0x43 = none ∧
      (hold (cap 15) [0x21, 0x41, 5, 9, 0x8E]).contents =
        (wholeFrame .controlPad [5, 9]).set 1 (FrameKind.vector3 .accel).typeByte ++ [] ∧
      (hold (cap 15) [0x21, 0x41, 5, 9, 0x8E]).len < (FrameKind.vector3 .accel).payloadLen + 3 ∧
      (hold (cap 15) ([0x21, 0x42] ++ List.replicate 12 0 ++ [0x9D])).contents =
        (wholeFrame (.vector3 .accel) (List.replicate 12 0)).set 1 FrameKind.controlPad.typeByte ++ [] ∧
      FrameKind.controlPad.payloadLen + 3 ≤ (hold (cap 15) ([0x21, 0x42] ++ List.replicate 12 0 ++ [0x9D])).len := by decide

theorem test_witness_NoSentinelConsumesNothing :
    (start (refCap 3)).contents = [] ∧ (hold (cap 3) [0x20, 0x42]).contents = 0x20 :: [0x42] ∧ (0x20 : Byte) ≠ sentinel := by
  decide

/-- A frame longer than the buffer (V48), and one that lacks its checksum byte. -/
theorem test_witness_StalledHeadAnswersInsufficientForever :
    (hold (cap 15) ([0x21, 0x51] ++ List.replicate 14 0)).Inv ∧
      (hold (cap 15) ([0x21, 0x51] ++ List.replicate 14 0)).cfg.shortFrame = .robust ∧
      (hold (cap 15) ([0x21, 0x51] ++ List.replicate 14 0)).cfg.N < FrameKind.quaternion.payloadLen + 3 ∧
      (hold (cap 15) ([0x21, 0x51] ++ List.replicate 14 0)).contents =
        sentinel :: FrameKind.quaternion.typeByte :: List.replicate 14 0 ∧
      (hold (cap 15) [0x21, 0x42, 5, 9]).Inv ∧
      (hold (cap 15) [0x21, 0x42, 5, 9]).contents = sentinel :: FrameKind.controlPad.typeByte :: [5, 9] ∧
      (hold (cap 15) [0x21, 0x42, 5, 9]).len < FrameKind.controlPad.payloadLen + 3 := by decide

theorem test_witness_ReferenceAgreesWithRobustWhenNothingIsMissing :
    (hold (refCap 15) goodFrame).Inv ∧ (hold (refCap 15) goodFrame).cfg.shortFrame = .reference ∧
      (hold (refCap 15) goodFrame).contents = sentinel :: FrameKind.controlPad.typeByte :: [5, 9, 0x8E] ∧
      FrameKind.controlPad.payloadLen + 3 ≤ (hold (refCap 15) goodFrame).len ∧
      (hold (refCap 15) [0x21, 0x43]).contents = sentinel :: 0x43 :: [] ∧ payloadLen 0x43 = none ∧
      (hold (refCap 15) [0x30]).contents.head? ≠ some sentinel := by decide

/-- Reset while an agent's next command is performed: a port with these items on it. -/
def struck (items : List PortItem) : State :=
  { hold (byteCap 3) [9] with
    consumer := { queue := items, recv := none }, schedule := [.reset (some .consumer)] }

/-- A RECV in progress struck, and on a port: a command with one behind it, a RECV with its data, a word that spells no
command, half a RECV, a stray data byte, nothing. -/
theorem test_witness_ResetLeavesTheResetState :
    (({ midRecv [1, 2] 3 (hold (byteCap 3) [9]) with schedule := [.reset none] } : State).port .producer).recv ≠ none ∧
      registers (step { midRecv [1, 2] 3 (hold (byteCap 3) [9]) with schedule := [.reset none] }) = some (0, 0, 0) ∧
      (struck []).schedule = .reset (some .consumer) :: [] ∧ ((struck []).port .consumer).recv = none ∧
      ((struck [.word 0x2, .word 0x4]).port .producer).recv = none ∧ some Agent.consumer ≠ some Agent.producer ∧
      decode ((struck [.word 0x2, .word 0x4]).port .consumer).queue = .instr .pop [.word 0x4] ∧
      decode ((struck [.word 0x0001000B, .data 7, .word 0x4]).port .consumer).queue = .instr (.recv [7]) [.word 0x4] ∧
      decode ((struck [.word 0, .word 0x4]).port .consumer).queue = .illegal .reservedOpcode [.word 0x4] ∧
      decode ((struck [.word 0x0002000B, .data 7]).port .consumer).queue = .incomplete ∧
      decode ((struck [.data 7]).port .consumer).queue = .stray ∧
      decode ((struck []).port .consumer).queue = .incomplete := by decide

/-- The struck command and its data are gone, and the command behind them stays. -/
theorem test_reset_drops_the_struck_command :
    (match step (struck [.word 0x0001000B, .data 7, .word 0x4]) with
      | .next s    => some (s.consumer, s.responses)
      | .fault _   => none
      | .refused _ => none) = some ({ queue := [.word 0x4], recv := none }, []) := by decide

/-- A step of each sort: a command, a byte of a RECV, a reset, a wait. -/
theorem test_witness_EveryStepKeepsTheInvariant :
    (served .consumer [.word 0x00000501] (hold (cap 3) [1, 2, 3, 4])).Inv ∧
      goesOn (step (served .consumer [.word 0x00000501] (hold (cap 3) [1, 2, 3, 4]))) = true ∧
      (midRecv [1, 2] 3 (hold (byteCap 3) [9])).Inv ∧ goesOn (step (midRecv [1, 2] 3 (hold (byteCap 3) [9]))) = true ∧
      ({ hold (cap 3) [1] with schedule := [.reset none] } : State).Inv ∧ (hold (cap 3) [1]).Inv := by decide

/-- A newline about to be evicted. -/
theorem test_witness_EveryStepKeepsTheLineCountExactUnderFix :
    (served .consumer [.word 0x00000501] (hold (cap 3) [0x0A, 2, 3, 0x0A])).Inv ∧
      (served .consumer [.word 0x00000501] (hold (cap 3) [0x0A, 2, 3, 0x0A])).cfg.lineEvict = .fix ∧
      (served .consumer [.word 0x00000501] (hold (cap 3) [0x0A, 2, 3, 0x0A])).LineCountExact ∧
      goesOn (step (served .consumer [.word 0x00000501] (hold (cap 3) [0x0A, 2, 3, 0x0A]))) = true := by decide

/-- A block under `INHERIT` and `BYTE`. -/
def inheritByte : Config := { byteCap 3 with lineEvict := .inherit }

/-- A full buffer with its newline behind the head, under `INHERIT` and `BYTE`: an ADD, the first byte of a RECV that would
evict the newline with its second, a READLINE; and under `CHUNK` a chunk that replaces everything. -/
theorem test_witness_AppendsThatLoseNoNewlineKeepTheLineCountExact :
    (hold inheritByte [1, 0x0A, 2, 3]).Inv ∧ (hold inheritByte [1, 0x0A, 2, 3]).LineCountExact ∧
      firstAppends inheritByte (.add 0x0A) = [0x0A] ∧ firstAppends inheritByte (.recv [5, 6]) = [5] ∧
      firstAppends inheritByte (.readline 9) = [] ∧
      (hold inheritByte [1, 0x0A, 2, 3]).EvictsNoNewline [0x0A] ∧ (hold inheritByte [1, 0x0A, 2, 3]).EvictsNoNewline [5] ∧
      ¬ (hold inheritByte [1, 0x0A, 2, 3]).EvictsNoNewline [5, 6] ∧ (hold inheritByte [1, 0x0A, 2, 3]).EvictsNoNewline [] ∧
      firstAppends (cap 3) (.recv [1, 2, 0x0A, 3, 4]) = [1, 2, 0x0A, 3] ∧
      (hold (cap 3) [5, 6]).EvictsNoNewline [1, 2, 0x0A, 3] := by decide

/-- The same as steps: an ADD presented, a byte of a RECV in progress, a RECV's first byte. -/
theorem test_witness_EveryStepThatEvictsNoNewlineKeepsTheLineCountExact :
    (served .consumer [.word 0x00000A01] (hold inheritByte [1, 0x0A, 2, 3])).nextAppends = [0x0A] ∧
      (served .consumer [.word 0x00000A01] (hold inheritByte [1, 0x0A, 2, 3])).EvictsNoNewline [0x0A] ∧
      (served .consumer [.word 0x00000A01] (hold inheritByte [1, 0x0A, 2, 3])).LineCountExact ∧
      (served .consumer [.word 0x00000A01] (hold inheritByte [1, 0x0A, 2, 3])).Inv ∧
      goesOn (step (served .consumer [.word 0x00000A01] (hold inheritByte [1, 0x0A, 2, 3]))) = true ∧
      (midRecv [5, 6] 3 (hold inheritByte [1, 0x0A, 2, 3])).Inv ∧
      (midRecv [5, 6] 3 (hold inheritByte [1, 0x0A, 2, 3])).nextAppends = [5] ∧
      (served .producer (encodeItems (.recv [5, 6])) (hold inheritByte [1, 0x0A, 2, 3])).nextAppends = [5] ∧
      (start inheritByte).nextAppends = [] := by decide

/-- A stale count as large as the statement allows, and a newline about to be evicted. -/
theorem test_witness_EveryStepKeepsTheLineCountCoveringUnderInherit :
    ({ (served .consumer [.word 0x00000A01] (hold { cap 3 with lineEvict := .inherit } [0x0A, 2, 3, 4])) with
        lc := 0xFFFFFFFB } : State).Inv ∧
      ({ (served .consumer [.word 0x00000A01] (hold { cap 3 with lineEvict := .inherit } [0x0A, 2, 3, 4])) with
        lc := 0xFFFFFFFB } : State).LineCountCovers ∧
      (0xFFFFFFFB : Word).toNat + 4 < 2 ^ 32 ∧ ¬ (0xFFFFFFFC : Word).toNat + 4 < 2 ^ 32 ∧
      registers (step { (served .consumer [.word 0x00000A01] (hold { cap 3 with lineEvict := .inherit } [0x0A, 2, 3, 4])) with
        lc := 0xFFFFFFFB }) = some (1, 4, 0xFFFFFFFC) := by decide

theorem test_witness_EveryStepKeepsTheParameters :
    goesOn (step { hold (cap 3) [1] with schedule := [.reset none] }) = true ∧
      goesOn (step (served .consumer [.word 0x5] (hold (refCap 3) [1]))) = true := by decide

/-- The largest registers of a full block. -/
theorem test_witness_RegistersFitTheirWidths :
    (hold (cap 3) [1, 2, 3, 4, 5, 6, 7]).Inv ∧ (hold (cap 3) [1, 2, 3, 4, 5, 6, 7]).wi = 3 ∧
      (hold (cap 3) [1, 2, 3, 4, 5, 6, 7]).len = 4 := by decide

/-- Two states that hold the same bytes at other slots, with other bytes around them. -/
theorem test_witness_IndistinguishableStatesAnswerAlike :
    (served .consumer [.word 0x2] (hold (cap 3) [7, 8])).Inv ∧
      ({ served .consumer [.word 0x2] (hold (cap 3) [7, 8]) with storage := [(0, 8), (2, 0x55), (3, 7)], wi := 1 } : State).Inv ∧
      (served .consumer [.word 0x2] (hold (cap 3) [7, 8])).Indistinguishable
        { served .consumer [.word 0x2] (hold (cap 3) [7, 8]) with storage := [(0, 8), (2, 0x55), (3, 7)], wi := 1 } ∧
      goesOn (runSteps 1 (served .consumer [.word 0x2] (hold (cap 3) [7, 8]))) = true ∧
      goesOn (runSteps 1 (served .consumer [.data 0] (start (cap 3)))) = false := by decide

theorem test_witness_StorageAndWriteIndexOfAnEmptyBufferAreUnseen :
    (served .consumer [.word 0x00000501] (start (cap 3))).Inv ∧ (served .consumer [.word 0x00000501] (start (cap 3))).len = 0 ∧
      Memory.wf [(0, 0x11), (3, 0xFF)] = true ∧ (∀ c ∈ ([(0, 0x11), (3, 0xFF)] : Memory), c.1 < (cap 3).N) ∧
      3 < (cap 3).N ∧ goesOn (runSteps 1 (served .consumer [.word 0x00000501] (start (cap 3)))) = true := by decide

/-- `withFetchWord` places an instruction so that the next step runs it, right after reset: a command, a RECV and a frame
type. The frame it places has checksum byte 0, so FRAME_B answers `BAD_CHECKSUM` and takes its five bytes. -/
theorem test_withFetchWord :
    seen (step (State.reset.withFetchWord 32 0x00000501)) = some (ans .ok 0 [], [0x05]) ∧
      seen (step (State.reset.withFetchWord 32 0x0002000B)) = some (ans .ok 2 [], [0, 0]) ∧
      seen (step (State.reset.withFetchWord 8 0x42)) = some (ans .badChecksum 5 [], List.replicate 14 0) := by decide

end Sys2Proof.Tests
end

/-! ## The widths of R12 hold the registers of R22 and R23 -/

namespace Sys2Proof

/-- The range of `WI` (R22): every slot below `N` fits in `IDX_W` bits, `N = 1` included. -/
theorem Config.N_le_two_pow_idxW (c : Config) : c.N ≤ 2 ^ c.idxW :=
  calc c.N ≤ 2 ^ Nat.clog 2 c.N := Nat.le_pow_clog Nat.one_lt_two _
    _ ≤ 2 ^ c.idxW := Nat.pow_le_pow_right Nat.two_pos (le_max_right _ _)

/-- The range of `LEN` (R23): a full buffer's length `N` itself fits in `LEN_W` bits. -/
theorem Config.N_lt_two_pow_lenW (c : Config) : c.N < 2 ^ c.lenW :=
  Nat.le_pow_clog Nat.one_lt_two (c.N + 1)

/-- Settles O53: the invariant bounds `WI` and `LEN` by `N`, and each width is the one that holds its range. -/
theorem registersFitTheirWidths : Obligations.RegistersFitTheirWidths := by
  intro s h
  obtain ⟨_, hwi, hlen⟩ := h.ring
  exact ⟨hwi.trans_le s.cfg.N_le_two_pow_idxW, hlen.trans_lt s.cfg.N_lt_two_pow_lenW⟩

end Sys2Proof

/-! ## The state: what every step keeps, and what no response shows -/

namespace Sys2Proof.Machine

/-! ### The read pointer and removal (R25, R26, R101) -/

/-- The `n` oldest bytes removed are those that `n` pops take. -/
theorem removed_contents {s : State} (h : s.RingOk) (n : Nat) (r : Response) :
    (s.removed n r).contents = s.contents.drop n := by
  rw [← popBytes_contents n h, popBytes_snd n h]; rfl

/-- The read pointer without the remainder (R26). -/
theorem readSlot_eq {s : State} (h : s.RingOk) :
    s.readSlot = if s.len ≤ s.wi then s.wi - s.len else s.wi + s.cfg.N - s.len :=
  State.slot_eq h (Nat.zero_le _)

/-- A full buffer and an empty one are read from the slot the next append writes (R26). -/
theorem readSlot_eq_wi {s : State} (h : s.RingOk) (hl : s.len = s.cfg.N ∨ s.len = 0) : s.readSlot = s.wi := by
  rw [readSlot_eq h]
  obtain ⟨_, hwi, _⟩ := h
  split_ifs <;> omega

/-- `LEN` is the distance from the read pointer to `WI`, which a full buffer shares with an empty one (R26). -/
theorem len_eq_distance {s : State} (h : s.RingOk) (hl : s.len ≠ s.cfg.N) :
    s.len = (s.wi + s.cfg.N - s.readSlot) % s.cfg.N := by
  rw [readSlot_eq h]
  obtain ⟨_, hwi, hlen⟩ := h
  split_ifs with hc
  · rw [show s.wi + s.cfg.N - (s.wi - s.len) = s.len + s.cfg.N by omega, Nat.add_mod_right, Nat.mod_eq_of_lt (by omega)]
  · rw [show s.wi + s.cfg.N - (s.wi + s.cfg.N - s.len) = s.len by omega, Nat.mod_eq_of_lt (by omega)]

/-- The slot of the read pointer holds the head of the sequence (R26). -/
theorem read_readSlot_of_contents {s : State} {b : Byte} {q : List Byte} (hq : s.contents = b :: q) :
    s.storage.read s.readSlot = b := by
  have hlen : 0 < s.len := by rw [← s.contents_length, hq]; exact Nat.succ_pos _
  rw [State.contents_eq_cons hlen] at hq
  exact (List.cons.inj hq).1

/-! ### The invariant -/

/-- What R104 allows of a RECV in progress, read off the port. -/
theorem Port.transferOk_iff {p : Port} {c : Config} : p.TransferOk c ↔ ∀ r, p.recv = some r →
    c.recvAtomicity = .byte ∧ 0 < r.rest.length ∧ r.rest.length < r.total ∧ r.total ≤ c.N := by
  cases hp : p.recv <;> simp [Port.TransferOk, hp]

theorem State.Inv.port {s : State} (h : s.Inv) (a : Agent) : (s.port a).TransferOk s.cfg := by
  obtain ⟨_, _, _, _, hp, hc⟩ := h
  cases a
  · exact hp
  · exact hc

theorem served_inv {s : State} (h : s.Inv) (a : Agent) (es : List Event) : (s.served a es).Inv := h

theorem setPort_inv {s : State} (h : s.Inv) (a : Agent) {p : Port} (ht : p.TransferOk s.cfg) :
    (s.setPort a p).Inv := by
  obtain ⟨hwf, hslots, hwi, hlen, hp, hc⟩ := h
  cases a
  · exact ⟨hwf, hslots, hwi, hlen, ht, hc⟩
  · exact ⟨hwf, hslots, hwi, hlen, hp, ht⟩

/-- Taking items from a port leaves the RECV in progress on it. -/
theorem setQueue_inv {s : State} (h : s.Inv) (a : Agent) (q : List PortItem) : (s.setQueue a q).Inv :=
  setPort_inv h a (h.port a)

theorem removed_inv {s : State} (h : s.Inv) (n : Nat) (r : Response) : (s.removed n r).Inv := by
  obtain ⟨hwf, hslots, hwi, hlen, hports⟩ := h
  exact ⟨hwf, hslots, hwi, (Nat.sub_le _ _).trans hlen, hports⟩

theorem pushBytes_inv {s : State} (h : s.Inv) (bs : List Byte) : (pushBytes bs s).Inv := by
  obtain ⟨hwf, hwi, hlen⟩ := pushBytes_ringOk bs h.ring
  obtain ⟨_, hslots, _, _, hp, hc⟩ := h
  exact ⟨hwf, by simpa using pushBytes_slots bs hslots, hwi, hlen, by simpa using hp, by simpa using hc⟩

/-- A byte step keeps the invariant, for a RECV that begins, with all its bytes left, and for one in progress. -/
theorem recvStep_inv {s : State} (h : s.Inv) {r : RecvTransfer} (hb : s.cfg.recvAtomicity = .byte)
    (hr : r.rest.length ≤ r.total) (ht : r.total ≤ s.cfg.N) : (recvStep r s).Inv := by
  rcases recvStep_cases r s with ⟨b, c, bs, hrest, hs⟩ | ⟨-, hs⟩
  · rw [hs]
    have hlt : bs.length + 1 < r.total := by simpa [hrest] using hr
    exact setPort_inv (pushBytes_inv h [b]) _ (Port.transferOk_iff.2 fun _ hr => by cases hr; simpa using ⟨hb, hlt, ht⟩)
  · rw [hs]
    exact setPort_inv (pushBytes_inv h r.rest) _ rfl

theorem exec_inv {i : Instr} {s t : State} (h : s.Inv) (he : exec i s = .next t) : t.Inv := by
  rcases exec_cases h.ring he with ⟨n, r, d, rfl⟩ | ⟨bs, r, -, -, rfl⟩ | ⟨data, -, hb, rfl⟩ | ⟨r, -, rfl⟩ | ⟨r, -, rfl⟩
  · exact removed_inv h n r
  · exact pushBytes_inv h bs
  · exact recvStep_inv h hb (le_refl _) (by simp [appendedPart])
  · obtain ⟨hwf, hslots, hwi, -, hports⟩ := h
    exact ⟨hwf, hslots, hwi, Nat.zero_le _, hports⟩
  · obtain ⟨hwf, hslots, -, -, hports⟩ := h
    exact ⟨hwf, hslots, s.cfg.N_pos, Nat.zero_le _, hports⟩

/-- Reset leaves no RECV in progress (R250). -/
@[simp] theorem Port.afterReset_recv (p : Port) (during : Bool) : (p.afterReset during).recv = none := by
  unfold Port.afterReset; split <;> rfl

/-- Reset meets the invariant whatever the state was (R33, R250). -/
theorem resetEvent_inv (d : Option Agent) (s : State) : (resetEvent d s).Inv :=
  ⟨rfl, fun _ hc => absurd hc List.not_mem_nil, s.cfg.N_pos, Nat.zero_le _, by simp [resetEvent, Port.TransferOk],
    by simp [resetEvent, Port.TransferOk]⟩

/-- A RECV in progress is one of `BYTE` mode with no more bytes left than it counts, and no more than fit (R104). -/
theorem State.Inv.transfer {s : State} (h : s.Inv) {a : Agent} {r : RecvTransfer} (hr : (s.port a).recv = some r) :
    s.cfg.recvAtomicity = .byte ∧ r.rest.length ≤ r.total ∧ r.total ≤ s.cfg.N := by
  obtain ⟨hb, -, hlt, hle⟩ := Port.transferOk_iff.1 (h.port a) r hr
  exact ⟨hb, hlt.le, hle⟩

theorem step_inv {s t : State} (h : s.Inv) (hs : step s = .next t) : t.Inv := by
  rcases step_cases hs with ⟨-, rfl⟩ | ⟨d, es, -, rfl⟩ | ⟨a, es, -, hserve⟩
  · exact h
  · exact resetEvent_inv d _
  rcases hserve with rfl | ⟨r, hr, rfl⟩ | ⟨e, rest, -, -, rfl⟩ | ⟨i, rest, -, -, he⟩
  · exact served_inv h a es
  · obtain ⟨hb, hle, hN⟩ := h.transfer hr
    exact recvStep_inv (served_inv h a es) hb hle hN
  · exact setQueue_inv (served_inv h a es) a rest
  · exact exec_inv (setQueue_inv (served_inv h a es) a rest) he

/-! ### The line count (R27, R28, R144) -/

/-- All that an operation can do to the sequence held and to the line count together: both emptied, some of the oldest
bytes removed, some bytes appended. -/
inductive LineEffect (s t : State) : Prop
  | emptied (hq : t.contents = []) (hlc : t.lc = 0)
  | removed (n : Nat) (hq : t.contents = s.contents.drop n)
      (hlc : t.lc = s.lc - BitVec.ofNat 32 ((s.contents.take n).count newline))
  | appended (bs : List Byte) (hbs : bs.length ≤ s.cfg.N) (hq : t.contents = (pushBytes bs s).contents)
      (hlc : t.lc = (pushBytes bs s).lc)

/-- The effect is the same on a state that differs only outside the buffer. -/
theorem LineEffect.congr {s u t : State} (hr : s.RingOk) (hr' : u.RingOk) (hc : u.cfg = s.cfg)
    (hq : u.contents = s.contents) (hlc : u.lc = s.lc) (e : LineEffect u t) : LineEffect s t := by
  have hlen : u.len = s.len := by rw [← u.contents_length, hq, s.contents_length]
  cases e with
  | emptied hq' hlc' => exact .emptied hq' hlc'
  | removed n hq' hlc' => exact .removed n (by rw [hq', hq]) (by rw [hlc', hlc, hq])
  | appended bs hbs hq' hlc' =>
    refine .appended bs (hc ▸ hbs) ?_ ?_
    · rw [hq', pushBytes_contents bs hr, pushBytes_contents bs hr', hq, hlen, hc]
    · rw [hlc', pushBytes_lc bs hr, pushBytes_lc bs hr', hq, hlen, hc, hlc]

/-- A byte step of a RECV appends what of its bytes it takes. -/
theorem recvStep_lineEffect {r : RecvTransfer} {s : State} (hr : r.rest.length ≤ s.cfg.N) :
    LineEffect s (recvStep r s) := by
  rcases recvStep_cases r s with ⟨b, c, bs, -, hs⟩ | ⟨-, hs⟩
  · rw [hs]
    exact .appended [b] s.cfg.N_pos (setTransfer_contents _ _) (setTransfer_lc _ _)
  · rw [hs]
    exact .appended r.rest hr (setTransfer_contents _ _) (setTransfer_lc _ _)

theorem exec_lineEffect {i : Instr} {s t : State} (h : s.RingOk) (he : exec i s = .next t) : LineEffect s t := by
  rcases exec_cases h he with ⟨n, r, d, rfl⟩ | ⟨bs, r, -, hbs, rfl⟩ | ⟨data, -, -, rfl⟩ | ⟨r, -, rfl⟩ | ⟨r, -, rfl⟩
  · exact .removed n (removed_contents h n r) rfl
  · exact .appended bs hbs rfl rfl
  · exact recvStep_lineEffect (by simp [appendedPart])
  · exact .emptied (State.contents_eq_nil rfl) rfl
  · exact .emptied (State.contents_eq_nil rfl) rfl

theorem step_lineEffect {s t : State} (h : s.Inv) (hs : step s = .next t) : LineEffect s t := by
  have hsame : ∀ u : State, u.contents = s.contents → u.lc = s.lc → LineEffect s u :=
    fun u hq hlc => .removed 0 hq (by simp [hlc])
  rcases step_cases hs with ⟨-, rfl⟩ | ⟨d, es, -, rfl⟩ | ⟨a, es, -, hserve⟩
  · exact hsame _ rfl rfl
  · exact .emptied (State.contents_eq_nil rfl) rfl
  rcases hserve with rfl | ⟨r, hr, rfl⟩ | ⟨e, rest, -, -, rfl⟩ | ⟨i, rest, -, -, he⟩
  · exact hsame _ rfl rfl
  · obtain ⟨-, hle, hN⟩ := h.transfer hr
    exact .congr h.ring (served_inv h a es).ring rfl rfl rfl (recvStep_lineEffect (hle.trans hN))
  · exact hsame _ (by simp [illegalCommand]) (by simp [illegalCommand])
  · have hu := (setQueue_inv (served_inv h a es) a rest).ring
    exact .congr h.ring hu (by simp) (by simp) (by simp) (exec_lineEffect hu he)

/-- The newlines held are fewer than a line count can say. -/
theorem State.newlines_lt {s : State} (h : s.RingOk) : s.newlines < 2 ^ 32 := by
  obtain ⟨-, -, hlen⟩ := h
  have hc : s.newlines ≤ s.len := s.contents_length ▸ List.count_le_length
  have hN := s.cfg.N_le
  omega

/-- An exact line count as a 32-bit word, the form its bookkeeping computes in. -/
theorem lineCountExact_iff {s : State} (h : s.RingOk) :
    s.LineCountExact ↔ s.lc = BitVec.ofNat 32 s.newlines := by
  rw [State.LineCountExact, ← BitVec.toNat_inj, BitVec.toNat_ofNat, Nat.mod_eq_of_lt (State.newlines_lt h)]

/-- The newlines of a sequence are those taken from its head and those left. -/
theorem count_take_add_count_drop (n : Nat) (q : List Byte) :
    (q.take n).count newline + (q.drop n).count newline = q.count newline := by
  rw [← List.count_append, List.take_append_drop]

/-- Under `FIX` a line count that is exact stays exact: what leaves the buffer is counted out, evicted or removed. -/
theorem LineEffect.exact_of_fix {s t : State} (e : LineEffect s t) (h : s.RingOk) (ht : t.RingOk)
    (hfix : s.cfg.lineEvict = .fix) (hex : s.LineCountExact) : t.LineCountExact := by
  have hlc := (lineCountExact_iff h).1 hex
  rw [lineCountExact_iff ht]
  cases e with
  | emptied hq' hlc' => rw [hlc', State.newlines, hq']; rfl
  | removed n hq' hlc' =>
    rw [hlc', hlc, State.newlines, State.newlines, hq', ← count_take_add_count_drop n s.contents, BitVec.ofNat_add]
    ring
  | appended bs hbs hq' hlc' =>
    have hcount := count_take_add_count_drop (s.len + bs.length - s.cfg.N) (s.contents ++ bs)
    rw [List.count_append] at hcount
    have hword := congrArg (BitVec.ofNat 32) hcount
    rw [BitVec.ofNat_add, BitVec.ofNat_add] at hword
    rw [hlc', pushBytes_lc bs h, if_pos hfix, hlc, State.newlines, State.newlines, hq', pushBytes_contents bs h]
    linear_combination -hword

/-- Under `INHERIT` a line count that covers the newlines held still does: an append counts in every newline it brings,
and does not wrap below `2 ^ 32 - N`. -/
theorem LineEffect.covers_of_inherit {s t : State} (e : LineEffect s t) (h : s.RingOk)
    (hinherit : s.cfg.lineEvict = .inherit) (hcov : s.LineCountCovers) (hwrap : s.lc.toNat + s.cfg.N < 2 ^ 32) :
    t.LineCountCovers := by
  unfold State.LineCountCovers State.newlines at hcov ⊢
  cases e with
  | emptied hq' hlc' => rw [hq']; exact Nat.zero_le _
  | removed n hq' hlc' =>
    have hcount := count_take_add_count_drop n s.contents
    rw [hq', hlc']
    generalize (s.contents.take n).count newline = taken at *
    bv_omega
  | appended bs hbs hq' hlc' =>
    have hcount := count_take_add_count_drop (s.len + bs.length - s.cfg.N) (s.contents ++ bs)
    have hnew : bs.count newline ≤ bs.length := List.count_le_length
    rw [List.count_append] at hcount
    rw [hq', hlc', pushBytes_contents bs h, pushBytes_lc bs h, if_neg (by simp [hinherit])]
    generalize bs.count newline = brought at *
    bv_omega

end Sys2Proof.Machine

namespace Sys2Proof

open Machine

/-- Settles O46: reset holds no byte, counts no line and has no RECV in progress. -/
theorem resetMeetsTheInvariant : Obligations.ResetMeetsTheInvariant := by
  unfold Obligations.ResetMeetsTheInvariant
  decide

/-- Settles O23: removing `n` bytes leaves what `n` pops leave. -/
theorem removalLeavesTheRestInOrder : Obligations.RemovalLeavesTheRestInOrder :=
  fun _ n r h => removed_contents h.ring n r

/-- Settles O26: the slot of position 0, computed without the remainder, by where `WI` lies. -/
theorem readPointerIsDerivedFromWiAndLen : Obligations.ReadPointerIsDerivedFromWiAndLen :=
  fun _ h => ⟨readSlot_eq_wi h.ring, len_eq_distance h.ring, fun _ _ hq => read_readSlot_of_contents hq⟩

/-- Settles O27: an instruction that is no append removes bytes, or is CLEAR or RESET. -/
theorem onlyAppendsWriteStorage : Obligations.OnlyAppendsWriteStorage := by
  intro i s t h hi he
  rcases exec_cases h.ring he with ⟨n, r, d, rfl⟩ | ⟨bs, r, hbs, -⟩ | ⟨data, rfl, -⟩ | ⟨r, rfl, rfl⟩ | ⟨r, rfl, rfl⟩
  · exact ⟨rfl, fun _ => rfl, Nat.sub_le _ _⟩
  · rw [hi] at hbs; cases hbs
  · cases hi
  · exact ⟨rfl, fun _ => rfl, Nat.zero_le _⟩
  · exact ⟨rfl, fun hne => absurd rfl hne, Nat.zero_le _⟩

/-- Settles O47: each case of a step, by what it does to the buffer and to the served port. -/
theorem everyStepKeepsTheInvariant : Obligations.EveryStepKeepsTheInvariant := fun _ _ => step_inv

/-- Settles O48: whatever a step does to the buffer, under `FIX` the line count follows. -/
theorem everyStepKeepsTheLineCountExactUnderFix : Obligations.EveryStepKeepsTheLineCountExactUnderFix :=
  fun _ _ h hfix hex hs => (step_lineEffect h hs).exact_of_fix h.ring (step_inv h hs).ring hfix hex

/-- Settles O51: whatever a step does to the buffer, under `INHERIT` no newline held goes uncounted. -/
theorem everyStepKeepsTheLineCountCoveringUnderInherit : Obligations.EveryStepKeepsTheLineCountCoveringUnderInherit :=
  fun _ _ h hinherit hcov hwrap hs => (step_lineEffect h hs).covers_of_inherit h.ring hinherit hcov hwrap

end Sys2Proof

/-! ## What no response shows: `WI` and the slots outside the sequence held (R33, R34) -/

namespace Sys2Proof.Machine

/-- Two states that no command sequence can tell apart, each with its buffer in order: the relation that every
operation keeps (R34). -/
structure State.Alike (s t : State) : Prop where
  left : s.RingOk
  right : t.RingOk
  same : s.Indistinguishable t

/-- An operation that answers the same from two states and leaves states alike. -/
structure ResultsAlike {α : Type} (x y : α × State) : Prop where
  fst : x.1 = y.1
  snd : x.2.Alike y.2

/-- Two steps that stop for the same reason, or go on to states alike. -/
inductive OutcomesAlike : Host.Outcome State Fault Refusal → Host.Outcome State Fault Refusal → Prop
  | next {s t : State} (h : s.Alike t) : OutcomesAlike (.next s) (.next t)
  | refused (r : Refusal) : OutcomesAlike (.refused r) (.refused r)

section
variable {s t : State} (h : s.Alike t)
include h

theorem State.Alike.port_eq (a : Agent) : s.port a = t.port a := by
  obtain ⟨-, -, -, -, -, -, hp, hc, -⟩ := h
  exact State.port_congr hp hc a

theorem State.Alike.cfg_eq : s.cfg = t.cfg := by
  obtain ⟨-, -, hcfg, -⟩ := h
  exact hcfg

theorem State.Alike.len_eq : s.len = t.len := by
  obtain ⟨-, -, -, hlen, -⟩ := h
  exact hlen

theorem State.Alike.lc_eq : s.lc = t.lc := by
  obtain ⟨-, -, -, -, hlc, -⟩ := h
  exact hlc

theorem State.Alike.contents_eq : s.contents = t.contents := by
  obtain ⟨-, -, -, -, -, hq, -⟩ := h
  exact hq

theorem State.Alike.schedule_eq : s.schedule = t.schedule := by
  obtain ⟨-, -, -, -, -, -, -, -, hsch, -⟩ := h
  exact hsch

theorem State.Alike.serving_eq : s.serving = t.serving := by
  obtain ⟨-, -, -, -, -, -, -, -, -, hsrv, -⟩ := h
  exact hsrv

theorem State.Alike.responses_eq : s.responses = t.responses := by
  obtain ⟨-, -, -, -, -, -, -, -, -, -, hres, -⟩ := h
  exact hres

/-! ### The state's operations -/

theorem respond_alike (st : Status) (v : Word) (d : List Byte) (f : Option Frame) :
    (respond st v d f s).Alike (respond st v d f t) := by
  obtain ⟨hl, hr, hcfg, hlen, hlc, hq, hp, hc, hsch, hsrv, hres, hdr⟩ := h
  exact ⟨hl, hr, hcfg, hlen, hlc, hq, hp, hc, hsch, hsrv, congrArg (· ++ _) hres, hdr⟩

theorem respondByte_alike (r : Option Byte) : (respondByte r s).Alike (respondByte r t) := by
  cases r <;> exact respond_alike h _ _ _ _

theorem served_alike (a : Agent) (es : List Event) : (s.served a es).Alike (t.served a es) := by
  obtain ⟨hl, hr, hcfg, hlen, hlc, hq, hp, hc, -, -, hres, hdr⟩ := h
  exact ⟨hl, hr, hcfg, hlen, hlc, hq, hp, hc, rfl, rfl, hres, hdr⟩

theorem setPort_alike (a : Agent) (p : Port) : (s.setPort a p).Alike (t.setPort a p) := by
  obtain ⟨hl, hr, hcfg, hlen, hlc, hq, hp, hc, hrest⟩ := h
  cases a
  · exact ⟨hl, hr, hcfg, hlen, hlc, hq, rfl, hc, hrest⟩
  · exact ⟨hl, hr, hcfg, hlen, hlc, hq, hp, rfl, hrest⟩

theorem setQueue_alike (a : Agent) (q : List PortItem) : (s.setQueue a q).Alike (t.setQueue a q) := by
  unfold State.setQueue
  rw [h.port_eq]
  exact setPort_alike h _ _

theorem setTransfer_alike (r : Option RecvTransfer) : (s.setTransfer r).Alike (t.setTransfer r) := by
  unfold State.setTransfer
  rw [h.serving_eq, h.port_eq]
  exact setPort_alike h _ _

/-- The buffer emptied: `WI` may be left or set, for no byte is held at any slot. -/
theorem emptied_alike {wi wi' : Nat} (hw : wi < s.cfg.N) (hw' : wi' < t.cfg.N) :
    ({ s with wi := wi, len := 0, lc := 0 } : State).Alike { t with wi := wi', len := 0, lc := 0 } := by
  obtain ⟨⟨hwf, -, -⟩, ⟨hwf', -, -⟩, hcfg, -, -, -, hports⟩ := h
  exact ⟨⟨hwf, hw, Nat.zero_le _⟩, ⟨hwf', hw', Nat.zero_le _⟩, hcfg, rfl, rfl, rfl, hports⟩

theorem drawByte_alike : ResultsAlike (drawByte s) (drawByte t) := by
  obtain ⟨hl, hr, hcfg, hlen, hlc, hq, hp, hc, hsch, hsrv, hres, hdr⟩ := h
  exact ⟨congrArg Config.drawByte hdr, hl, hr, hcfg, hlen, hlc, hq, hp, hc, hsch, hsrv, hres, congrArg (· + 1) hdr⟩

theorem drawMatch_alike : ResultsAlike (drawMatch s) (drawMatch t) := by
  obtain ⟨hl, hr, hcfg, hlen, hlc, hq, hp, hc, hsch, hsrv, hres, hdr⟩ := h
  exact ⟨congrArg Config.drawMatch hdr, hl, hr, hcfg, hlen, hlc, hq, hp, hc, hsch, hsrv, hres, congrArg (· + 1) hdr⟩

/-! ### The primitives -/

/-- A pop looks at the head of the sequence only. -/
theorem popByte_alike : ResultsAlike (popByte s) (popByte t) := by
  refine ⟨by rw [popByte_fst, popByte_fst, h.contents_eq], popByte_ringOk h.left, popByte_ringOk h.right, ?_⟩
  obtain ⟨hl, hr, hcfg, hlen, hlc, hq, hrest⟩ := h
  simp [State.Indistinguishable, popByte_len, popByte_lc, popByte_contents hl, popByte_contents hr, hcfg, hlen, hlc,
    hq, hrest]

/-- An append evicts the head of the sequence, at whatever slot it lies. -/
theorem pushByte_alike (b : Byte) : (pushByte b s).Alike (pushByte b t) := by
  refine ⟨pushByte_ringOk b h.left, pushByte_ringOk b h.right, ?_⟩
  obtain ⟨hl, hr, hcfg, hlen, hlc, hq, hrest⟩ := h
  simp [State.Indistinguishable, pushByte_len, pushByte_lc_eq b hl, pushByte_lc_eq b hr, pushByte_contents b hl,
    pushByte_contents b hr, hcfg, hlen, hlc, hq, hrest]

theorem peekByte_eq_of_alike (i : Nat) : peekByte i s = peekByte i t := by
  rw [peekByte_eq, peekByte_eq, h.contents_eq]

theorem peekBytes_eq_of_alike (n : Nat) : peekBytes n s = peekBytes n t := by
  rw [peekBytes_eq, peekBytes_eq, h.contents_eq]

end

theorem popBytes_alike {s t : State} (h : s.Alike t) (n : Nat) : ResultsAlike (popBytes n s) (popBytes n t) := by
  induction n generalizing s t with
  | zero => exact ⟨rfl, h⟩
  | succ n ih =>
    obtain ⟨hfst, hsnd⟩ := popByte_alike h
    obtain ⟨hfst', hsnd'⟩ := ih hsnd
    exact ⟨congrArg₂ List.cons hfst hfst', hsnd'⟩

theorem pushBytes_alike {s t : State} (h : s.Alike t) (bs : List Byte) : (pushBytes bs s).Alike (pushBytes bs t) := by
  induction bs generalizing s t with
  | nil => exact h
  | cons b bs ih => exact ih (pushByte_alike h b)

theorem fillDraws_alike {s t : State} (h : s.Alike t) (rs : List (Option Byte)) :
    ResultsAlike (fillDraws rs s) (fillDraws rs t) := by
  induction rs generalizing s t with
  | nil => exact ⟨rfl, h⟩
  | cons r rs ih =>
    cases r with
    | some b =>
      obtain ⟨hfst, hsnd⟩ := ih h
      exact ⟨congrArg (b :: ·) hfst, hsnd⟩
    | none =>
      obtain ⟨hfst, hsnd⟩ := drawByte_alike h
      obtain ⟨hfst', hsnd'⟩ := ih hsnd
      exact ⟨congrArg₂ List.cons hfst hfst', hsnd'⟩

section
variable {s t : State} (h : s.Alike t)
include h

/-! ### The frame decoder -/

theorem hasSentinel_eq_of_alike : hasSentinel s = hasSentinel t := by
  rw [hasSentinel_eq, hasSentinel_eq, h.contents_eq]

theorem takeFrameRobust_alike (k : FrameKind) : (takeFrameRobust k s).Alike (takeFrameRobust k t) := by
  obtain ⟨hframe, hrest⟩ := popBytes_alike h k.frameLen
  unfold takeFrameRobust takeWholeFrame
  dsimp only
  rw [hframe, h.cfg_eq, h.len_eq]
  split_ifs
  · exact respond_alike h _ _ _ _
  · exact respond_alike hrest _ _ _ _
  · exact respond_alike hrest _ _ _ _

theorem referenceMatch_alike (r : Option Byte) (sum : Nat) :
    ResultsAlike (referenceMatch r sum s) (referenceMatch r sum t) := by
  cases r with
  | none => exact drawMatch_alike h
  | some c => exact ⟨rfl, h⟩

theorem referenceBody_alike (k : FrameKind) : (referenceBody k s).Alike (referenceBody k t) := by
  obtain ⟨hreads, h₁⟩ := popBytes_alike h k.payloadLen
  obtain ⟨hpayload, h₂⟩ := fillDraws_alike h₁ (popBytes k.payloadLen t).1
  obtain ⟨hlast, h₃⟩ := popByte_alike h₂
  unfold referenceBody referenceAnswer
  dsimp only
  rw [hreads, hpayload, hlast]
  obtain ⟨hmatch, h₄⟩ := referenceMatch_alike h₃ _ _
  rw [hmatch, h₄.cfg_eq]
  split_ifs
  · exact respond_alike h₄ _ _ _ _
  · exact respond_alike h₄ _ _ _ _

theorem takeFrame_alike (k : FrameKind) : (takeFrame k s).Alike (takeFrame k t) := by
  unfold takeFrame
  rw [h.cfg_eq]
  split
  · exact takeFrameRobust_alike h k
  · exact referenceBody_alike (popBytes_alike h 2).snd k

theorem readcmdRobust_alike : (readcmdRobust s).Alike (readcmdRobust t) := by
  unfold readcmdRobust
  rw [hasSentinel_eq_of_alike h, peekByte_eq_of_alike h]
  split
  · split
    · exact respond_alike h _ _ _ _
    · split
      · exact respond_alike (popBytes_alike h 2).snd _ _ _ _
      · exact takeFrameRobust_alike h _
  · exact respond_alike h _ _ _ _

theorem readcmdReference_alike : (readcmdReference s).Alike (readcmdReference t) := by
  obtain ⟨htype, h₂⟩ := popByte_alike (popByte_alike h).snd
  unfold readcmdReference
  rw [hasSentinel_eq_of_alike h, htype]
  split
  · split
    · exact respond_alike h₂ _ _ _ _
    · split
      · exact respond_alike h₂ _ _ _ _
      · exact referenceBody_alike h₂ _
  · exact respond_alike h _ _ _ _

/-! ### The instructions and the step -/

theorem recvStep_alike (r : RecvTransfer) : (recvStep r s).Alike (recvStep r t) := by
  unfold recvStep
  split
  · exact respond_alike (setTransfer_alike h _) _ _ _ _
  · exact respond_alike (setTransfer_alike (pushByte_alike h _) _) _ _ _ _
  · exact setTransfer_alike (pushByte_alike h _) _

theorem textLen_eq_of_alike (m : Half) : textLen m s = textLen m t := by
  rw [textLen_eq, textLen_eq, h.contents_eq]

theorem lineSpan_eq_of_alike : lineSpan s = lineSpan t := by
  rw [lineSpan_eq, lineSpan_eq, h.contents_eq]

theorem execReadcmd_alike : OutcomesAlike (execReadcmd s) (execReadcmd t) := by
  unfold execReadcmd
  rw [h.cfg_eq]
  split
  · exact .next (readcmdRobust_alike h)
  · exact .next (readcmdReference_alike h)

theorem execRecv_alike (data : List Byte) : OutcomesAlike (execRecv data s) (execRecv data t) := by
  unfold execRecv appendedPart
  rw [h.cfg_eq]
  split
  · exact .next (respond_alike (pushBytes_alike h _) _ _ _ _)
  · exact .next (recvStep_alike h _)

theorem execPeekline_alike (m : Half) : OutcomesAlike (execPeekline m s) (execPeekline m t) := by
  unfold execPeekline
  rw [textLen_eq_of_alike h, peekBytes_eq_of_alike h]
  split
  · exact .next (respond_alike h _ _ _ _)
  · exact .next (respond_alike h _ _ _ _)

theorem execReadline_alike (m : Half) : OutcomesAlike (execReadline m s) (execReadline m t) := by
  obtain ⟨htext, hrest⟩ := popBytes_alike h (lineSpan t)
  unfold execReadline
  rw [textLen_eq_of_alike h, lineSpan_eq_of_alike h, htext]
  split
  · exact .next (respond_alike h _ _ _ _)
  · exact .next (respond_alike hrest _ _ _ _)

theorem execPop_alike : OutcomesAlike (execPop s) (execPop t) := by
  obtain ⟨hbyte, hrest⟩ := popByte_alike h
  unfold execPop
  rw [hbyte]
  exact .next (respondByte_alike hrest _)

theorem execPeekat_alike (index : Half) : OutcomesAlike (execPeekat index s) (execPeekat index t) := by
  unfold execPeekat
  rw [peekByte_eq_of_alike h]
  exact .next (respondByte_alike h _)

theorem execLength_alike : OutcomesAlike (execLength s) (execLength t) := by
  unfold execLength
  rw [h.len_eq]
  exact .next (respond_alike h _ _ _ _)

theorem execClear_alike : OutcomesAlike (execClear s) (execClear t) := by
  obtain ⟨-, hwi, -⟩ := h.left
  obtain ⟨-, hwi', -⟩ := h.right
  exact .next (respond_alike (emptied_alike h hwi hwi') _ _ _ _)

theorem execLines_alike : OutcomesAlike (execLines s) (execLines t) := by
  unfold execLines
  rw [h.lc_eq]
  exact .next (respond_alike h _ _ _ _)

theorem execHascmd_alike : OutcomesAlike (execHascmd s) (execHascmd t) := by
  unfold execHascmd
  rw [hasSentinel_eq_of_alike h]
  exact .next (respond_alike h _ _ _ _)

/-- Every instruction answers alike from states alike. -/
theorem exec_alike (i : Instr) : OutcomesAlike (exec i s) (exec i t) := by
  cases i with
  | add b => exact .next (respond_alike (pushByte_alike h b) _ _ _ _)
  | pop => exact execPop_alike h
  | peekat index => exact execPeekat_alike h index
  | length => exact execLength_alike h
  | clear => exact execClear_alike h
  | lines => exact execLines_alike h
  | peekline m => exact execPeekline_alike h m
  | readline m => exact execReadline_alike h m
  | hascmd => exact execHascmd_alike h
  | readcmd => exact execReadcmd_alike h
  | recv data => exact execRecv_alike h data
  | reset => exact .next (respond_alike (emptied_alike h s.cfg.N_pos t.cfg.N_pos) _ _ _ _)
  | frameQ => exact .next (takeFrame_alike h _)
  | frameA => exact .next (takeFrame_alike h _)
  | frameG => exact .next (takeFrame_alike h _)
  | frameM => exact .next (takeFrame_alike h _)
  | frameL => exact .next (takeFrame_alike h _)
  | frameB => exact .next (takeFrame_alike h _)

/-- READCMD selects the frame type by the head of the sequence. -/
theorem selectFrame_eq_of_alike (i : Instr) : selectFrame i s = selectFrame i t := by
  unfold selectFrame frameHead
  rw [hasSentinel_eq_of_alike h, peekByte_eq_of_alike h]

theorem resetEvent_alike (d : Option Agent) (es : List Event) :
    (resetEvent d { s with schedule := es }).Alike (resetEvent d { t with schedule := es }) := by
  obtain ⟨-, -, hcfg, -, -, -, hp, hc, -, hsrv, hres, hdr⟩ := h
  exact ⟨(resetEvent_inv d _).ring, (resetEvent_inv d _).ring, hcfg, rfl, rfl, rfl, congrArg (Port.afterReset · _) hp,
    congrArg (Port.afterReset · _) hc, rfl, hsrv, hres, hdr⟩

/-- One step from states alike: the same event, the same command, the same answer. -/
theorem step_alike : OutcomesAlike (step s) (step t) := by
  unfold step
  rw [← h.schedule_eq]
  split
  · exact .next h
  · exact .next (resetEvent_alike h _ _)
  · rename_i a es _
    have hserved := served_alike h a es
    unfold fetch
    simp only [served_serving, served_port, h.port_eq]
    cases hrecv : (t.port a).recv with
    | some r => exact .next (recvStep_alike hserved r)
    | none =>
      cases hdecode : decode (t.port a).queue with
      | incomplete => exact .next hserved
      | stray => exact .refused _
      | illegal e rest => exact .next (respond_alike (setQueue_alike hserved a rest) _ _ _ _)
      | instr i rest =>
        have hset := setQueue_alike hserved a rest
        dsimp only
        rw [selectFrame_eq_of_alike hset]
        exact exec_alike hset _

end

theorem runSteps_alike {s t : State} (h : s.Alike t) (n : Nat) : OutcomesAlike (runSteps n s) (runSteps n t) := by
  induction n generalizing s t with
  | zero => exact .next h
  | succ n ih =>
    have hstep := step_alike h
    unfold runSteps
    generalize step s = x, step t = y at hstep ⊢
    cases hstep with
    | next h' => exact ih h'
    | refused r => exact .refused r

end Sys2Proof.Machine

namespace Sys2Proof

open Machine

/-- Settles O54: being alike is kept by every step, and a run of steps is an induction on their number. -/
theorem indistinguishableStatesAnswerAlike : Obligations.IndistinguishableStatesAnswerAlike := by
  intro n s t hs ht hst
  have hrun := runSteps_alike ⟨hs.ring, ht.ring, hst⟩ n
  generalize runSteps n s = x, runSteps n t = y at hrun ⊢
  cases hrun with
  | @next s' t' h =>
    refine ⟨fun u hu => ?_, by simp⟩
    cases hu
    exact ⟨t', rfl, h.responses_eq.symm, h.same⟩
  | refused r => exact ⟨by simp, fun r' hr => hr⟩

/-- Settles O55: an empty buffer holds the same sequence whatever `WI` and the storage are. -/
theorem storageAndWriteIndexOfAnEmptyBufferAreUnseen : Obligations.StorageAndWriteIndexOfAnEmptyBufferAreUnseen := by
  intro n s s' m w hs hlen hwf hslots hw hrun
  have hinv : ({ s with storage := m, wi := w } : State).Inv := by
    obtain ⟨-, -, -, hle, hports⟩ := hs
    exact ⟨hwf, hslots, hw, hle, hports⟩
  have hq : s.contents = ({ s with storage := m, wi := w } : State).contents :=
    (State.contents_eq_nil hlen).trans (State.contents_eq_nil (s := { s with storage := m, wi := w }) hlen).symm
  obtain ⟨hnext, -⟩ := indistinguishableStatesAnswerAlike n s _ hs hinv
    ⟨rfl, rfl, rfl, hq, rfl, rfl, rfl, rfl, rfl, rfl⟩
  obtain ⟨t', ht, hres, -⟩ := hnext s' hrun
  exact ⟨t', ht, hres⟩

end Sys2Proof

/-! ## One step: the served agent's port, the instruction run, the byte steps of a RECV (R45 to R48) -/

namespace Sys2Proof.Machine

/-! ### What a step of a served agent performs, an equation per case -/

section
variable {s : State} {a : Agent} {es : List Event} (hs : s.schedule = .serve a :: es)
include hs

/-- A RECV in progress goes on by one byte step. -/
theorem step_of_recv {r : RecvTransfer} (hr : (s.port a).recv = some r) :
    step s = .next (recvStep r (s.served a es)) := by
  simp [step, hs, fetch, hr]

section
variable (hr : (s.port a).recv = none)
include hr

theorem step_of_incomplete (hd : decode (s.port a).queue = .incomplete) : step s = .next (s.served a es) := by
  simp [step, hs, fetch, hr, hd]

theorem step_of_stray (hd : decode (s.port a).queue = .stray) : step s = .refused .strayPortData := by
  simp [step, hs, fetch, hr, hd]

/-- A whole command is taken from the port and performed, a READCMD as the frame type it selects. -/
theorem step_of_instr {i : Instr} {rest : List PortItem} (hd : decode (s.port a).queue = .instr i rest) :
    step s = exec (selectFrame i ((s.setPort a { queue := rest, recv := none }).served a es))
      ((s.setPort a { queue := rest, recv := none }).served a es) := by
  have hu : (s.served a es).setQueue a rest = (s.setPort a { queue := rest, recv := none }).served a es :=
    served_setQueue s a es rest hr
  simp [step, hs, fetch, hr, hd, hu]

end
end

/-! ### What a decoded command leaves on its port (R65) -/

theorem decode_illegal {items rest : List PortItem} {e : DecodeError} (h : decode items = .illegal e rest) :
    ∃ w, items = .word w :: rest := by
  unfold decode at h
  split at h
  · cases h
  · cases h
  · split at h
    · cases h; exact ⟨_, rfl⟩
    · cases h
    · split at h <;> cases h

/-- A command and its data bytes stood at the front of the port. -/
theorem decode_instr {items rest : List PortItem} {i : Instr} (h : decode items = .instr i rest) :
    ∃ taken, items = taken ++ rest := by
  unfold decode at h
  split at h
  · cases h
  · cases h
  · rename_i w tail
    split at h
    · cases h
    · cases h; exact ⟨[.word w], rfl⟩
    · split at h
      · rename_i htake
        cases h
        obtain ⟨bs, -, -, rfl⟩ := takeData_all htake
        exact ⟨.word w :: bs.map PortItem.data, rfl⟩
      · cases h
      · cases h

/-! ### What an instruction leaves outside the buffer -/

/-- Nothing changed but the buffer and the count of draws. -/
structure State.SameOutside (s t : State) : Prop where
  cfg : t.cfg = s.cfg
  producer : t.producer = s.producer
  consumer : t.consumer = s.consumer
  schedule : t.schedule = s.schedule
  serving : t.serving = s.serving
  responses : t.responses = s.responses

/-- One response is emitted, and nothing else changed but the buffer and the count of draws. -/
def State.Answers (s t : State) : Prop := ∃ u r, s.SameOutside u ∧ t = u.answered r

theorem State.SameOutside.refl (s : State) : s.SameOutside s := ⟨rfl, rfl, rfl, rfl, rfl, rfl⟩

theorem State.SameOutside.trans {s t u : State} (h : s.SameOutside t) (h' : t.SameOutside u) : s.SameOutside u :=
  ⟨h'.cfg.trans h.cfg, h'.producer.trans h.producer, h'.consumer.trans h.consumer, h'.schedule.trans h.schedule,
    h'.serving.trans h.serving, h'.responses.trans h.responses⟩

theorem State.SameOutside.answers {s t u : State} (h : s.SameOutside t) (h' : t.Answers u) : s.Answers u := by
  obtain ⟨v, r, hv, rfl⟩ := h'
  exact ⟨v, r, h.trans hv, rfl⟩

theorem State.SameOutside.respond {s u : State} (h : s.SameOutside u) (st : Status) (v : Word) (d : List Byte)
    (f : Option Frame) : s.Answers (respond st v d f u) :=
  ⟨u, _, h, rfl⟩

theorem respond_answers (s : State) (st : Status) (v : Word) (d : List Byte) (f : Option Frame) :
    s.Answers (respond st v d f s) :=
  (State.SameOutside.refl s).respond st v d f

theorem respondByte_answers (x : Option Byte) (s : State) : s.Answers (respondByte x s) := by
  obtain ⟨r, hr⟩ := respondByte_eq x s
  exact ⟨s, r, .refl s, hr⟩

theorem pushBytes_sameOutside (bs : List Byte) (s : State) : s.SameOutside (pushBytes bs s) := by
  constructor <;> simp

theorem popBytes_sameOutside (n : Nat) (s : State) : s.SameOutside (popBytes n s).2 := by
  constructor <;> simp

theorem popByte_sameOutside (s : State) : s.SameOutside (popByte s).2 := popBytes_sameOutside 1 s

theorem fillDraws_sameOutside (rs : List (Option Byte)) (s : State) : s.SameOutside (fillDraws rs s).2 := by
  constructor <;> simp

theorem referenceMatch_sameOutside (r : Option Byte) (sum : Nat) (s : State) :
    s.SameOutside (referenceMatch r sum s).2 := by
  cases r <;> exact ⟨rfl, rfl, rfl, rfl, rfl, rfl⟩

theorem takeFrameRobust_answers (k : FrameKind) (s : State) : s.Answers (takeFrameRobust k s) := by
  unfold takeFrameRobust takeWholeFrame
  split
  · exact respond_answers s _ _ _ _
  · dsimp only
    split <;> exact (popBytes_sameOutside _ s).respond _ _ _ _

theorem referenceAnswer_answers (k : FrameKind) (n : Nat) (p : List Byte) (m : Bool × State) :
    m.2.Answers (referenceAnswer k n p m) := by
  unfold referenceAnswer
  split <;> exact respond_answers m.2 _ _ _ _

/-- Payload popped, empty reads drawn, checksum popped and compared: the buffer and the draws alone change (R179). -/
theorem referenceBody_answers (k : FrameKind) (s : State) : s.Answers (referenceBody k s) :=
  ((((popBytes_sameOutside _ s).trans (fillDraws_sameOutside _ _)).trans (popByte_sameOutside _)).trans
    (referenceMatch_sameOutside _ _ _)).answers (referenceAnswer_answers k _ _ _)

theorem takeFrame_answers (k : FrameKind) (s : State) : s.Answers (takeFrame k s) := by
  unfold takeFrame
  split
  · exact takeFrameRobust_answers k s
  · exact (popBytes_sameOutside 2 s).answers (referenceBody_answers k _)

theorem readcmdRobust_answers (s : State) : s.Answers (readcmdRobust s) := by
  unfold readcmdRobust
  split
  · split
    · exact respond_answers s _ _ _ _
    · split
      · exact (popBytes_sameOutside 2 s).respond _ _ _ _
      · exact takeFrameRobust_answers _ s
  · exact respond_answers s _ _ _ _

theorem readcmdReference_answers (s : State) : s.Answers (readcmdReference s) := by
  have hpop : s.SameOutside (popByte (popByte s).2).2 := popBytes_sameOutside 2 s
  unfold readcmdReference
  split
  · split
    · exact hpop.respond _ _ _ _
    · split
      · exact hpop.respond _ _ _ _
      · exact hpop.answers (referenceBody_answers _ _)
  · exact respond_answers s _ _ _ _

theorem exec_recv_of_chunk {s : State} (h : s.cfg.recvAtomicity = .chunk) (data : List Byte) :
    exec (.recv data) s = .next ((pushBytes (appendedPart data s) s).answered
      (plainResponse .ok (countValue (appendedPart data s).length) [])) := by
  simp only [exec, execRecv, h]
  rfl

theorem exec_recv_of_byte {s : State} (h : s.cfg.recvAtomicity = .byte) (data : List Byte) :
    exec (.recv data) s =
      .next (recvStep { rest := appendedPart data s, total := (appendedPart data s).length } s) := by
  simp only [exec, execRecv, h]

/-- In every state, every instruction but the first byte step of a RECV completes with one response and leaves all else
outside the buffer as it was (R66, R220). -/
theorem exec_answers {i : Instr} {s : State} (h : s.cfg.recvAtomicity = .chunk ∨ ∀ data, i ≠ .recv data) :
    ∃ t, exec i s = .next t ∧ s.Answers t := by
  have hemptied : ∀ wi, s.SameOutside { s with wi := wi, len := 0, lc := 0 } :=
    fun _ => ⟨rfl, rfl, rfl, rfl, rfl, rfl⟩
  cases i with
  | add b => exact ⟨_, rfl, (pushBytes_sameOutside [b] s).respond _ _ _ _⟩
  | pop => exact ⟨_, rfl, (popByte_sameOutside s).answers (respondByte_answers _ _)⟩
  | peekat index => exact ⟨_, rfl, respondByte_answers _ s⟩
  | length => exact ⟨_, rfl, respond_answers s _ _ _ _⟩
  | clear => exact ⟨_, rfl, _, _, hemptied s.wi, rfl⟩
  | lines => exact ⟨_, rfl, respond_answers s _ _ _ _⟩
  | peekline m =>
    simp only [exec, execPeekline]
    split <;> exact ⟨_, rfl, respond_answers s _ _ _ _⟩
  | readline m =>
    simp only [exec, execReadline]
    split
    · exact ⟨_, rfl, respond_answers s _ _ _ _⟩
    · exact ⟨_, rfl, (popBytes_sameOutside _ s).respond _ _ _ _⟩
  | hascmd => exact ⟨_, rfl, respond_answers s _ _ _ _⟩
  | readcmd =>
    simp only [exec, execReadcmd]
    split
    · exact ⟨_, rfl, readcmdRobust_answers s⟩
    · exact ⟨_, rfl, readcmdReference_answers s⟩
  | recv data =>
    have hchunk : s.cfg.recvAtomicity = .chunk := h.resolve_right fun hne => hne data rfl
    exact ⟨_, exec_recv_of_chunk hchunk data, _, _, pushBytes_sameOutside _ s, rfl⟩
  | reset => exact ⟨_, rfl, _, _, hemptied 0, rfl⟩
  | frameQ => exact ⟨_, rfl, takeFrame_answers _ s⟩
  | frameA => exact ⟨_, rfl, takeFrame_answers _ s⟩
  | frameG => exact ⟨_, rfl, takeFrame_answers _ s⟩
  | frameM => exact ⟨_, rfl, takeFrame_answers _ s⟩
  | frameL => exact ⟨_, rfl, takeFrame_answers _ s⟩
  | frameB => exact ⟨_, rfl, takeFrame_answers _ s⟩

/-! ### The order of steps and of each agent's items (R48) -/

/-- `t` comes after `s` with the schedule, the agent served, that agent's items and the other agent's port as they were. -/
structure State.KeepsOrder (s t : State) : Prop where
  schedule : t.schedule = s.schedule
  serving : t.serving = s.serving
  queue : (t.port s.serving).queue = (s.port s.serving).queue
  other : ∀ b, b ≠ s.serving → t.port b = s.port b

theorem recvStep_keepsOrder (r : RecvTransfer) (s : State) : s.KeepsOrder (recvStep r s) := by
  obtain ⟨-, hschedule, hserving, hqueue, hother⟩ := recvStep_outside r s
  exact ⟨hschedule, hserving, hqueue, hother⟩

theorem State.Answers.keepsOrder {s t : State} (h : s.Answers t) : s.KeepsOrder t := by
  obtain ⟨u, r, hu, rfl⟩ := h
  have hport : ∀ b, (u.answered r).port b = s.port b := State.port_congr hu.producer hu.consumer
  exact ⟨hu.schedule, hu.serving, by rw [hport], fun b _ => hport b⟩

theorem exec_keepsOrder {i : Instr} {s t : State} (he : exec i s = .next t) : s.KeepsOrder t := by
  have hanswers : (s.cfg.recvAtomicity = .chunk ∨ ∀ data, i ≠ .recv data) → s.KeepsOrder t := by
    intro h
    obtain ⟨t', ht', ha⟩ := exec_answers h
    rw [he] at ht'
    cases ht'
    exact ha.keepsOrder
  cases hm : s.cfg.recvAtomicity with
  | chunk => exact hanswers (.inl hm)
  | byte =>
    by_cases hi : ∃ data, i = .recv data
    · obtain ⟨data, rfl⟩ := hi
      rw [exec_recv_of_byte hm] at he
      cases he
      exact recvStep_keepsOrder _ s
    · exact hanswers (.inr fun data hd => hi ⟨data, hd⟩)

/-- A step that performs something on the state with `rest` left on the served port keeps that agent's order. -/
theorem State.KeepsOrder.of_setQueue {s t : State} {a : Agent} {es : List Event} {taken rest : List PortItem}
    (hq : (s.port a).queue = taken ++ rest) (h : ((s.served a es).setQueue a rest).KeepsOrder t) :
    t.schedule = es ∧ t.serving = a ∧ (∀ b, b ≠ a → t.port b = s.port b) ∧
      ∃ taken, (s.port a).queue = taken ++ (t.port a).queue := by
  obtain ⟨hschedule, hserving, hqueue, hother⟩ := h
  simp only [setQueue_schedule, setQueue_serving, served_schedule, served_serving] at hschedule hserving hqueue hother
  refine ⟨hschedule, hserving, fun b hb => ?_, taken, ?_⟩
  · rw [hother b hb]
    exact setPort_port_of_ne _ _ hb
  · rw [hqueue, State.setQueue, setPort_port]
    exact hq

/-- Putting an agent's items back as they are changes nothing. -/
theorem setQueue_self (s : State) (a : Agent) : s.setQueue a (s.port a).queue = s := by
  cases a <;> rfl

/-! ### Reads (R46) -/

/-- The instructions that read: their answer depends on `LC` and the sequence held and on nothing else. -/
theorem exec_read_answered {i : Instr}
    (hi : i = .length ∨ i = .lines ∨ (∃ n, i = .peekat n) ∨ (∃ m, i = .peekline m) ∨ i = .hascmd) (s : State) :
    ∃ r, ∀ u : State, u.lc = s.lc → u.contents = s.contents → exec i u = .next (u.answered r) := by
  rcases hi with rfl | rfl | ⟨n, rfl⟩ | ⟨m, rfl⟩ | rfl
  · refine ⟨plainResponse .ok (countValue s.len) [], fun u _ hq => ?_⟩
    rw [← s.contents_length, ← hq, u.contents_length]
    rfl
  · refine ⟨plainResponse .ok s.lc [], fun u hlc _ => ?_⟩
    rw [← hlc]
    rfl
  · obtain ⟨r, hr⟩ : ∃ r, ∀ u, respondByte s.contents[n.toNat]? u = u.answered r := by
      cases s.contents[n.toNat]? <;> exact ⟨_, fun _ => rfl⟩
    refine ⟨r, fun u _ hq => ?_⟩
    rw [← hr, ← hq, ← peekByte_eq]
    rfl
  · by_cases hm : m = 0
    · exact ⟨plainResponse .illegal 0 [], fun u _ _ => by simp only [exec, execPeekline, if_pos hm]; rfl⟩
    · refine ⟨plainResponse .ok (countValue (textLen m s)) (peekBytes (textLen m s) s ++ [0x00]), fun u _ hq => ?_⟩
      have htext : textLen m u = textLen m s := by rw [textLen_eq, textLen_eq, hq]
      have hbytes : ∀ k, peekBytes k u = peekBytes k s := fun k => by rw [peekBytes_eq, peekBytes_eq, hq]
      simp only [exec, execPeekline, if_neg hm, htext, hbytes]
      rfl
  · refine ⟨plainResponse .ok (if hasSentinel s then 1 else 0) [], fun u _ hq => ?_⟩
    have hhead : hasSentinel u = hasSentinel s := by simp only [hasSentinel, peekByte_eq, hq]
    rw [← hhead]
    rfl

/-! ### An append beside the ports and the schedule -/

theorem setPort_self (s : State) (a : Agent) : s.setPort a (s.port a) = s := by
  cases a <;> rfl

theorem pushByte_setPort (b : Byte) (s : State) (a : Agent) (p : Port) :
    pushByte b (s.setPort a p) = (pushByte b s).setPort a p := by
  rw [pushByte_eq, pushByte_eq]
  cases a <;> rfl

theorem pushByte_served (b : Byte) (s : State) (a : Agent) (es : List Event) :
    pushByte b (s.served a es) = (pushByte b s).served a es := by
  rw [pushByte_eq, pushByte_eq]
  rfl

/-- The atomicity of RECV has no part in an append. -/
theorem pushBytes_recvAtomicity (bs : List Byte) (s : State) (m : RecvAtomicity) :
    pushBytes bs { s with cfg := { s.cfg with recvAtomicity := m } } =
      { pushBytes bs s with cfg := { s.cfg with recvAtomicity := m } } := by
  induction bs generalizing s with
  | nil => rfl
  | cons b bs ih =>
    have hb : pushByte b { s with cfg := { s.cfg with recvAtomicity := m } } =
        { pushByte b s with cfg := { (pushByte b s).cfg with recvAtomicity := m } } := by
      rw [pushByte_eq, pushByte_eq]
      rfl
    rw [pushBytes, pushBytes, hb, ih, pushByte_cfg]

/-- The one-step RECV, on a block that differs in the atomicity alone. -/
theorem exec_recv_chunk (data : List Byte) (s : State) :
    exec (.recv data) { s with cfg := { s.cfg with recvAtomicity := .chunk } } =
      .next { (pushBytes (data.take s.cfg.N) s).answered
          (plainResponse .ok (countValue (data.take s.cfg.N).length) []) with
        cfg := { s.cfg with recvAtomicity := .chunk } } := by
  rw [exec_recv_of_chunk rfl, pushBytes_recvAtomicity]
  rfl

/-- The newline an append counts out is the head of a full buffer (R6, R100). -/
theorem pushByte_lc_head {s : State} (b : Byte) (h : s.RingOk) :
    (pushByte b s).lc = s.lc
      - (if s.len = s.cfg.N ∧ s.cfg.lineEvict = .fix ∧ s.contents.head? = some newline then 1 else 0)
      + (if b = newline then 1 else 0) := by
  rw [pushByte_lc_eq b h]
  congr 2
  by_cases hf : s.len = s.cfg.N
  · rw [State.contents_eq_cons (by rw [hf]; simp), show s.len + 1 - s.cfg.N = 1 by omega]
    by_cases hb : s.at 0 = newline <;> simp [hf, hb]
  · obtain ⟨-, -, hle⟩ := h
    simp [hf, show s.len + 1 - s.cfg.N = 0 by omega]

/-! ### The byte steps of a RECV (R45, R104) -/

/-- The step that takes a RECV from the port under `BYTE` is its first byte step. -/
theorem step_of_byte_recv {s : State} {a : Agent} {es : List Event} {data : List Byte} {rest : List PortItem}
    (hs : s.schedule = .serve a :: es) (hm : s.cfg.recvAtomicity = .byte) (hr : (s.port a).recv = none)
    (hd : decode (s.port a).queue = .instr (.recv data) rest) :
    step s = .next (recvStep { rest := data.take s.cfg.N, total := (data.take s.cfg.N).length }
      ((s.setPort a { queue := rest, recv := none }).served a es)) := by
  rw [step_of_instr hs hr hd, selectFrame, if_neg (by simp), exec_recv_of_byte (by simpa using hm)]
  simp [appendedPart]

/-- A byte step with a byte to append, on the state in which `a` is served with the port `p`. -/
theorem recvStep_cons (b : Byte) (left : List Byte) (total : Nat) (s : State) (a : Agent) (p : Port) (es : List Event) :
    recvStep { rest := b :: left, total := total } ((s.setPort a p).served a es) =
      (({ pushByte b s with responses := s.responses ++ answerAfterByte left total } : State).setPort a
        (portAfterByte p.queue left total)).served a es := by
  have hpush : pushByte b ((s.setPort a p).served a es) = ((pushByte b s).setPort a p).served a es := by
    rw [pushByte_served, pushByte_setPort]
  rw [← pushByte_responses s b]
  cases left with
  | nil =>
    show respond _ _ _ _ ((pushByte b _).setTransfer none) = _
    rw [hpush]
    cases a <;> rfl
  | cons c bs =>
    show (pushByte b _).setTransfer _ = _
    rw [hpush, answerAfterByte, if_neg (List.cons_ne_nil c bs), List.append_nil]
    cases a <;> rfl

/-- What a byte step of the agent `a` does, whatever was left on its port when it was served (R100, R104). -/
theorem recvStep_byteAppended {s : State} (h : s.RingOk) (a : Agent) (es : List Event) (p : Port) (b : Byte)
    (left : List Byte) (total : Nat) :
    s.ByteAppended (recvStep { rest := b :: left, total := total } ((s.setPort a p).served a es)) a es b
      (portAfterByte p.queue left total) (answerAfterByte left total) := by
  have hlen : (pushByte b s).len = if s.len = s.cfg.N then s.cfg.N else s.len + 1 := by
    rw [pushByte_len]
    exact ite_congr rfl id fun _ => rfl
  rw [recvStep_cons]
  refine ⟨?_, fun x => ?_, ?_⟩
  · rw [← hlen, ← pushByte_lc_head b h]
    cases a <;> simp [State.setPort, State.served, pushByte_eq]
  · rw [← State.writeSlot_eq h, ← Memory.read_write _ _ _ _ h.1, ← pushByte_storage]
    cases a <;> rfl
  · rw [← List.length_singleton (a := b), ← pushBytes_contents [b] h]
    exact setPort_contents _ _ _

theorem runSteps_succ {s t : State} (h : step s = .next t) (n : Nat) : runSteps (n + 1) s = runSteps n t := by
  rw [runSteps, h]

/-- A RECV whose agent alone is served, from any of its byte steps to its last: its bytes are appended in turn, it is over,
and it has answered once (R45, R104). -/
theorem runSteps_recvStep (a : Agent) (bs : List Byte) (total : Nat) (s : State) (p : Port) :
    runSteps (bs.length - 1) (recvStep { rest := bs, total := total }
        ((s.setPort a p).served a (List.replicate (bs.length - 1) (.serve a)))) =
      .next ((pushBytes bs ((s.setPort a { p with recv := none }).served a [])).answered
        (plainResponse .ok (countValue total) [])) := by
  induction bs generalizing s p with
  | nil => cases a <;> rfl
  | cons b left ih =>
    rw [pushBytes, pushByte_served, pushByte_setPort, recvStep_cons]
    cases left with
    | nil =>
      rw [← pushByte_responses s b]
      cases a <;> rfl
    | cons c bs =>
      rw [answerAfterByte, if_neg (List.cons_ne_nil c bs), List.append_nil, ← pushByte_responses s b]
      exact (runSteps_succ (step_of_recv List.replicate_succ (by rw [served_port, setPort_port]; rfl)) _).trans
        (ih (pushByte b s) _)

end Sys2Proof.Machine

namespace Sys2Proof

open Machine

/-- Settles O7: the state a decoded instruction runs on, and the instruction READCMD selects there. -/
theorem stepRunsTheDecodedInstruction : Obligations.StepRunsTheDecodedInstruction :=
  fun _ _ _ _ _ hs hr hd => step_of_instr hs hr hd

/-- Settles O8: one equation of the step for each case. -/
theorem stepsThatRunNoInstruction : Obligations.StepsThatRunNoInstruction :=
  ⟨fun s hs => by rw [step, hs],
    fun _ _ _ hs => ⟨fun _ => step_of_recv hs, fun hr => ⟨step_of_incomplete hs hr, step_of_stray hs hr⟩⟩⟩

/-- Settles O11: each case of a step works on the state with some items taken from the front of the served port. -/
theorem stepsKeepEachAgentsOrder : Obligations.StepsKeepEachAgentsOrder := by
  intro s t a es hs ht
  have hqueue : (s.served a es).setQueue a (s.port a).queue = s.served a es := setQueue_self (s.served a es) a
  rcases step_cases ht with ⟨hnil, -⟩ | ⟨d, es', hreset, -⟩ | ⟨a', es', hserve, hcase⟩
  · rw [hs] at hnil; cases hnil
  · rw [hs] at hreset; cases hreset
  rw [hs] at hserve
  cases hserve
  rcases hcase with rfl | ⟨r, -, rfl⟩ | ⟨e, rest, -, hd, rfl⟩ | ⟨i, rest, -, hd, he⟩
  · exact ⟨rfl, rfl, fun _ _ => rfl, [], rfl⟩
  · exact State.KeepsOrder.of_setQueue (List.nil_append _).symm (hqueue.symm ▸ recvStep_keepsOrder r _)
  · obtain ⟨w, hw⟩ := decode_illegal hd
    exact State.KeepsOrder.of_setQueue (taken := [.word w]) hw (respond_answers _ _ _ _ _).keepsOrder
  · obtain ⟨taken, htaken⟩ := decode_instr hd
    exact State.KeepsOrder.of_setQueue htaken (exec_keepsOrder he)

/-- Settles O15: the byte steps end where the appends of the one-step RECV end, which do not look at the atomicity. -/
theorem byteRecvServedWholeEqualsChunkRecv : Obligations.ByteRecvServedWholeEqualsChunkRecv := by
  intro s a data rest _ hm hr hd hs
  have hlen : min data.length s.cfg.N = (data.take s.cfg.N).length := by simp [Nat.min_comm]
  have hsteps : max 1 (min data.length s.cfg.N) = (data.take s.cfg.N).length - 1 + 1 := by omega
  rw [hsteps] at hs ⊢
  refine ⟨_, (runSteps_succ (step_of_byte_recv hs hm hr hd) _).trans (runSteps_recvStep a _ _ s _), ?_⟩
  rw [← setPort_cfg s a { queue := rest, recv := none }]
  exact exec_recv_chunk data ((s.setPort a { queue := rest, recv := none }).served a [])

/-- Settles O16: the first byte step works on the port without the RECV's items, a later one on the port as it stands. -/
theorem byteStepAppendsOneByteAndOnlyTheLastAnswers : Obligations.ByteStepAppendsOneByteAndOnlyTheLastAnswers := by
  intro s a es h hs
  refine ⟨fun data rest hm hr hd => ⟨fun hdata => ?_, fun b left hdata => ?_⟩, fun b left total hr => ?_⟩
  · rw [step_of_byte_recv hs hm hr hd, hdata]
    cases a <;> rfl
  · have htotal : min data.length s.cfg.N = (data.take s.cfg.N).length := by simp [Nat.min_comm]
    rw [step_of_byte_recv hs hm hr hd, htotal, hdata]
    exact ⟨_, rfl, recvStep_byteAppended h.ring a es { queue := rest, recv := none } b left _⟩
  · have happ := recvStep_byteAppended h.ring a es (s.port a) b left total
    rw [setPort_self] at happ
    exact ⟨_, step_of_recv hs hr, happ⟩

/-- Settles O28: the response emitted changes neither `LC` nor the sequence held, on which a read depends. -/
theorem readsChangeNothingAndRepeat : Obligations.ReadsChangeNothingAndRepeat := by
  intro i s hi
  obtain ⟨r, hr⟩ := exec_read_answered hi s
  exact ⟨r, hr s rfl rfl, hr (s.answered r) rfl rfl⟩

end Sys2Proof

/-! ## Encoding: words, ports and frame types (R60 to R65, R70) -/

namespace Sys2Proof

/-! ### The words the decoder takes, and those it rejects (R61 to R63) -/

/-- The word `w` is the command word that the encoder gives for what `h` asks for; a RECV's data bytes follow it. -/
def Head.IsSpelledBy (w : Word) : Head → Prop
  | .complete i => i.wf = true ∧ i.isCommand = true ∧ encode i = .port [.word w]
  | .recv n     => n ≤ 65535 ∧ w = cmdWord (BitVec.ofNat 16 n) 0 0xB

section
variable {p : Prop} [Decidable p] {x h : Head} {e₀ : DecodeError}

/-- A check of fields that passes. -/
theorem check_eq_ok : (if p then Except.ok x else .error e₀) = .ok h ↔ p ∧ h = x := by
  split_ifs with hp <;> simp [hp, eq_comm]

/-- A check of fields that fails. -/
theorem check_eq_error : (∃ e, (if p then Except.ok x else .error e₀) = .error e) ↔ ¬p := by
  split_ifs with hp <;> simp [hp]

end

section
variable {w : Word} {i : Instr} {h : Head}

theorem plainCommand_eq_ok : plainCommand w i = .ok h ↔ (arg16Field w = 0 ∧ data8Field w = 0) ∧ h = .complete i :=
  check_eq_ok

theorem plainCommand_eq_error : (∃ e, plainCommand w i = .error e) ↔ arg16Field w ≠ 0 ∨ data8Field w ≠ 0 :=
  check_eq_error.trans not_and_or

theorem lineCommand_eq_ok : lineCommand w i = .ok h ↔ data8Field w = 0 ∧ arg16Field w ≠ 0 ∧ h = .complete i := by
  unfold lineCommand
  split_ifs <;> simp_all [eq_comm]

theorem lineCommand_eq_error : (∃ e, lineCommand w i = .error e) ↔ data8Field w ≠ 0 ∨ arg16Field w = 0 := by
  unfold lineCommand
  split_ifs <;> simp_all

theorem decodeWord_eq_ok : decodeWord w = .ok h ↔ rsvField w = 0 ∧ decodeOp w = .ok h := by
  unfold decodeWord
  split_ifs <;> simp_all

theorem decodeWord_eq_error : (∃ e, decodeWord w = .error e) ↔ rsvField w ≠ 0 ∨ ∃ e, decodeOp w = .error e := by
  unfold decodeWord
  split_ifs <;> simp_all

/-- A word with `rsv = 0` is known from its other fields (R60). -/
theorem eq_cmdWord {a : Half} {d : Byte} {o : BitVec 4} (hr : rsvField w = 0) (ha : arg16Field w = a)
    (hd : data8Field w = d) (ho : opField w = o) : w = cmdWord a d o := by
  rw [← ha, ← hd, ← ho, cmdWord_fields w hr]

section
variable {o : BitVec 4} (hr : rsvField w = 0) (ho : opField w = o)
include hr ho

theorem plainCommand_isSpelledBy (hwf : i.wf = true) (hc : i.isCommand = true)
    (he : encode i = .port [.word (cmdWord 0 0 o)]) (hw : plainCommand w i = .ok h) : h.IsSpelledBy w := by
  obtain ⟨⟨ha, hd⟩, rfl⟩ := plainCommand_eq_ok.1 hw
  exact ⟨hwf, hc, eq_cmdWord hr ha hd ho ▸ he⟩

theorem lineCommand_isSpelledBy (hwf : arg16Field w ≠ 0 → i.wf = true) (hc : i.isCommand = true)
    (he : encode i = .port [.word (cmdWord (arg16Field w) 0 o)]) (hw : lineCommand w i = .ok h) : h.IsSpelledBy w := by
  obtain ⟨hd, ha, rfl⟩ := lineCommand_eq_ok.1 hw
  exact ⟨hwf ha, hc, by rw [he, ← eq_cmdWord hr rfl hd ho]⟩

end

/-- The decoder takes a word only for the command it is the encoding of, opcode by opcode. -/
theorem decodeOp_isSpelledBy (hr : rsvField w = 0) (hw : decodeOp w = .ok h) : h.IsSpelledBy w := by
  unfold decodeOp at hw
  split at hw <;> rename_i ho
  case h_1 =>
    obtain ⟨ha, rfl⟩ := check_eq_ok.1 hw
    exact ⟨rfl, rfl, congrArg (Encoding.port [.word ·]) (eq_cmdWord hr ha rfl ho).symm⟩
  case h_2 => exact plainCommand_isSpelledBy hr ho rfl rfl rfl hw
  case h_3 =>
    obtain ⟨hd, rfl⟩ := check_eq_ok.1 hw
    exact ⟨rfl, rfl, congrArg (Encoding.port [.word ·]) (eq_cmdWord hr rfl hd ho).symm⟩
  case h_4 => exact plainCommand_isSpelledBy hr ho rfl rfl rfl hw
  case h_5 => exact plainCommand_isSpelledBy hr ho rfl rfl rfl hw
  case h_6 => exact plainCommand_isSpelledBy hr ho rfl rfl rfl hw
  case h_7 => exact lineCommand_isSpelledBy (i := .peekline _) hr ho decide_eq_true rfl rfl hw
  case h_8 => exact lineCommand_isSpelledBy (i := .readline _) hr ho decide_eq_true rfl rfl hw
  case h_9 => exact plainCommand_isSpelledBy hr ho rfl rfl rfl hw
  case h_10 => exact plainCommand_isSpelledBy hr ho rfl rfl rfl hw
  case h_11 =>
    obtain ⟨hd, rfl⟩ := check_eq_ok.1 hw
    exact ⟨Nat.le_of_lt_succ (arg16Field w).isLt, eq_cmdWord hr (by simp) hd ho⟩
  case h_12 => exact plainCommand_isSpelledBy hr ho rfl rfl rfl hw
  case h_13 => cases hw

theorem decodeWord_isSpelledBy (hw : decodeWord w = .ok h) : h.IsSpelledBy w :=
  have ⟨hr, ho⟩ := decodeWord_eq_ok.1 hw
  decodeOp_isSpelledBy hr ho

end

theorem decodeWord_recv {n : Nat} (hn : n ≤ 65535) : decodeWord (cmdWord (BitVec.ofNat 16 n) 0 0xB) = .ok (.recv n) := by
  simp [decodeWord_eq_ok, decodeOp, Nat.mod_eq_of_lt (Nat.lt_succ_of_le hn)]

/-- The opcodes outside R61's table are the four reserved ones (R63). -/
theorem mem_reserved_of_ne : ∀ o : BitVec 4, o ≠ 0x1 → o ≠ 0x2 → o ≠ 0x3 → o ≠ 0x4 → o ≠ 0x5 → o ≠ 0x6 → o ≠ 0x7 →
    o ≠ 0x8 → o ≠ 0x9 → o ≠ 0xA → o ≠ 0xB → o ≠ 0xC → o ∈ [0x0#4, 0xD#4, 0xE#4, 0xF#4] := by decide

theorem decodeOp_eq_error {w : Word} (hr : rsvField w = 0) :
    (∃ e, decodeOp w = .error e) ↔ Machine.SpellsNoCommand w := by
  unfold decodeOp
  split
  case h_13 h1 h2 h3 h4 h5 h6 h7 h8 h9 hA hB hC =>
    exact iff_of_true ⟨_, rfl⟩ (.inr (.inl (mem_reserved_of_ne _ h1 h2 h3 h4 h5 h6 h7 h8 h9 hA hB hC)))
  all_goals
    rename_i ho
    simp [Machine.SpellsNoCommand, hr, ho, check_eq_error, plainCommand_eq_error, lineCommand_eq_error, or_comm]

/-! ### The front of a port (R65) -/

/-- A command at the front of a port and what is behind it, from the word there and the data bytes taken. -/
theorem decode_eq_instr {items rest : List PortItem} {i : Instr} :
    decode items = .instr i rest ↔
      (∃ w, items = .word w :: rest ∧ decodeWord w = .ok (.complete i)) ∨
      ∃ w data, items = .word w :: (data.map PortItem.data ++ rest) ∧ decodeWord w = .ok (.recv data.length) ∧
        i = .recv data := by
  constructor
  · intro h
    unfold decode at h
    split at h
    · cases h
    · cases h
    · rename_i w tail
      split at h
      · cases h
      · rename_i hw
        cases h
        exact .inl ⟨w, rfl, hw⟩
      · rename_i hw
        split at h
        · rename_i htake
          cases h
          obtain ⟨bs, rfl, rfl, rfl⟩ := takeData_all htake
          exact .inr ⟨w, _, rfl, hw, rfl⟩
        · cases h
        · cases h
  · rintro (⟨w, rfl, hw⟩ | ⟨w, data, rfl, hw, rfl⟩)
    · simp [decode, hw]
    · simp [decode, hw, takeData_map]

theorem encodeItems_of_port {i : Instr} {items : List PortItem} (h : encode i = .port items) : encodeItems i = items := by
  rw [encodeItems, h]

theorem encode_eq_port {i : Instr} (hc : i.isCommand = true) : encode i = .port (encodeItems i) := by
  cases i
  case frameQ | frameA | frameG | frameM | frameL | frameB => cases hc
  all_goals rfl

/-- Every well-formed command is read back from its items, whatever is behind them. -/
theorem decode_encodeItems {i : Instr} (hwf : i.wf = true) (hc : i.isCommand = true) (rest : List PortItem) :
    decode (encodeItems i ++ rest) = .instr i rest := by
  rw [decode_eq_instr]
  cases i
  case recv data => exact .inr ⟨_, data, rfl, decodeWord_recv (of_decide_eq_true hwf), rfl⟩
  case peekline m | readline m =>
    exact .inl ⟨_, rfl, by simpa [decodeWord_eq_ok, decodeOp, lineCommand_eq_ok, Instr.wf] using hwf⟩
  case frameQ | frameA | frameG | frameM | frameL | frameB => cases hc
  all_goals exact .inl ⟨_, rfl, by simp [decodeWord_eq_ok, decodeOp, plainCommand_eq_ok]⟩

namespace Machine

/-- A word that spells no command is taken from the port, alone, and answered `ILLEGAL` (R62, R222). -/
theorem step_of_illegal {s : State} {a : Agent} {es : List Event} {rest : List PortItem} {e : DecodeError}
    (hs : s.schedule = .serve a :: es) (hr : (s.port a).recv = none) (hd : decode (s.port a).queue = .illegal e rest) :
    step s = .next (illegalCommand ((s.setPort a { queue := rest, recv := none }).served a es)) := by
  have hu : (s.served a es).setQueue a rest = (s.setPort a { queue := rest, recv := none }).served a es :=
    served_setQueue s a es rest hr
  simp [step, hs, fetch, hr, hd, hu]

end Machine

/-! ### Frame types (R70) -/

theorem decodeFrameType_typeByte (k : FrameKind) : decodeFrameType k.typeByte = some k.instr := by
  rw [decodeFrameType, Machine.frameKindOf_typeByte, Option.map_some]

theorem encode_frameInstr (k : FrameKind) : encode k.instr = .frameType k.typeByte := by
  rcases k with _ | g | _
  · rfl
  · cases g <;> rfl
  · rfl

/-- An instruction that is no command is a frame type. -/
theorem exists_frameInstr {i : Instr} (hc : i.isCommand = false) : ∃ k : FrameKind, i = k.instr := by
  cases i
  case frameQ => exact ⟨.quaternion, rfl⟩
  case frameA => exact ⟨.vector3 .accel, rfl⟩
  case frameG => exact ⟨.vector3 .gyro, rfl⟩
  case frameM => exact ⟨.vector3 .mag, rfl⟩
  case frameL => exact ⟨.vector3 .location, rfl⟩
  case frameB => exact ⟨.controlPad, rfl⟩
  all_goals cases hc

theorem typeByte_mem (k : FrameKind) : k.typeByte ∈ [0x51#8, 0x41#8, 0x47#8, 0x4D#8, 0x4C#8, 0x42#8] := by
  rcases k with _ | g | _
  · decide
  · cases g <;> decide
  · decide

namespace Machine

/-- A whole frame of the type at the head is taken alike under either policy (R178, R179). -/
theorem takeFrame_whole {s : State} (h : s.RingOk) {k : FrameKind} {c : Byte} {p rest : List Byte}
    (hq : s.contents = sentinel :: k.typeByte :: (p ++ c :: rest)) (hp : p.length = k.payloadLen) :
    takeFrame k s = s.removed (k.payloadLen + 3)
      (if c = checksum (sentinel :: k.typeByte :: p) then
        { status := .ok, value := countValue (k.payloadLen + 3), data := p, frame := some (frameOf s.cfg.floatOrder k p) }
       else plainResponse .badChecksum (countValue (k.payloadLen + 3)) []) := by
  have hlen : ¬ s.len < k.frameLen := by
    rw [← s.contents_length, hq, FrameKind.frameLen, ← hp]
    simp
  have hbody : (popBytes 2 s).2.contents = p ++ c :: rest := by rw [popBytes_contents 2 h, hq]; rfl
  have hcount : 2 + (p.length + 1) = p.length + 3 := by omega
  unfold takeFrame
  split
  · rw [takeFrameRobust, if_neg hlen, takeWholeFrame_eq h hq hp, hp, apply_ite (s.removed _)]
  · rw [referenceBody_whole (popBytes_ringOk 2 h) hbody hp, removed_popBytes h, removed_popBytes h, popBytes_cfg, hcount,
      hp, apply_ite (s.removed _)]

theorem takeFrame_short {s : State} (hm : s.cfg.shortFrame = .robust) {k : FrameKind} (hl : s.len < k.frameLen) :
    takeFrame k s = s.answered (plainResponse .insufficient 0 []) := by
  unfold takeFrame
  rw [hm]
  exact if_pos hl

end Machine

/-! ### The statements -/

open Machine

/-- Settles O2: a word the decoder takes is the command's own, and the data bytes taken are those a RECV's count asks. -/
theorem portReadsExactlyTheEncodedCommands : Obligations.PortReadsExactlyTheEncodedCommands := by
  intro items i rest
  constructor
  · intro h
    rcases decode_eq_instr.1 h with ⟨w, rfl, hw⟩ | ⟨w, data, rfl, hw, rfl⟩
    · obtain ⟨hwf, hc, he⟩ := decodeWord_isSpelledBy hw
      exact ⟨hwf, hc, by rw [encodeItems_of_port he]; rfl⟩
    · obtain ⟨hn, rfl⟩ := decodeWord_isSpelledBy hw
      exact ⟨decide_eq_true hn, rfl, rfl⟩
  · rintro ⟨hwf, hc, rfl⟩
    exact decode_encodeItems hwf hc rest

/-- Settles O1: a command by the items of its port, a frame type by its type byte. -/
theorem decodeOfEncodeIsTheInstruction : Obligations.DecodeOfEncodeIsTheInstruction := by
  intro i hwf
  cases hc : i.isCommand
  case true =>
    have hd := decode_encodeItems hwf hc []
    rw [List.append_nil] at hd
    rw [encode_eq_port hc, decodeEncoding, hd]
  case false =>
    obtain ⟨k, rfl⟩ := exists_frameInstr hc
    rw [encode_frameInstr]
    exact decodeFrameType_typeByte k

/-- Settles O3: `rsv` is checked first, then the opcode's own fields. -/
theorem rejectedWordsAreThoseThatSpellNoCommand : Obligations.RejectedWordsAreThoseThatSpellNoCommand := by
  intro w
  rw [decodeWord_eq_error]
  by_cases hr : rsvField w = 0
  · simp only [hr, ne_eq, not_true_eq_false, false_or, decodeOp_eq_error hr]
  · exact iff_of_true (.inl hr) (.inl hr)

/-- Settles O5: a byte with a frame kind is that kind's type byte, one of the six. -/
theorem frameTypesAreTheTable : Obligations.FrameTypesAreTheTable := by
  refine ⟨rfl, rfl, rfl, rfl, rfl, rfl, fun t ht => ?_, rfl, rfl, rfl, rfl, rfl, rfl, rfl, fun _ => rfl, rfl⟩
  rw [payloadLen_eq_none]
  cases hk : frameKindOf t with
  | none => rfl
  | some k => exact absurd (typeByte_of_frameKindOf hk ▸ typeByte_mem k) ht

/-- Settles O6, by decoding each word. -/
theorem specWordsDecodeAsTheSpecSays : Obligations.SpecWordsDecodeAsTheSpecSays := by
  refine ⟨?_, ?_, ?_, ?_, ?_, ?_, ?_, ?_⟩ <;> decide

/-- Settles O4: such a word decodes as illegal, and the step takes it from the port and answers. -/
theorem illegalWordAnswersIllegalAndChangesNothing : Obligations.IllegalWordAnswersIllegalAndChangesNothing := by
  intro s a es w rest hs hr hq hw
  obtain ⟨e, he⟩ := (rejectedWordsAreThoseThatSpellNoCommand w).2 hw
  have hd : decode (s.port a).queue = .illegal e rest := by rw [hq]; simp only [decode, he]
  rw [step_of_illegal hs hr hd]
  cases a <;> rfl

/-- Settles O39: a frame type's meaning is the frame of its kind, whole or short. -/
theorem frameTypesTakeTheirFrame : Obligations.FrameTypesTakeTheirFrame := by
  intro k s h
  refine ⟨fun p c rest hq hp => ?_, fun hm hl => ?_⟩
  · rw [exec_frameInstr, takeFrame_whole h.ring hq hp]
    rfl
  · rw [exec_frameInstr, takeFrame_short hm hl]

end Sys2Proof

/-! ## The ring buffer: appends, POP, PEEKAT, LENGTH, CLEAR and RESET, and the laws of R110 and R111 -/

namespace Sys2Proof.Machine

/-! ### Appends and their answers, said of any number of them (R100, R103, R104) -/

/-- The state after the bytes `bs` are appended in turn and the responses `rs` are emitted. -/
def State.appended (s : State) (bs : List Byte) (rs : List Response) : State :=
  { pushBytes bs s with responses := s.responses ++ rs }

/-- An instruction that appends in one step: an ADD on any block, and a RECV under `CHUNK` (R45). -/
def OneStepAppend (c : Config) (i : Instr) : Prop :=
  (∃ b, i = .add b) ∨ c.recvAtomicity = .chunk ∧ ∃ data, i = .recv data

/-- The answer of an append on a block of capacity `n`: 0 for ADD, the number of bytes appended for RECV (R103, R104). -/
def appendAnswer (n : Nat) : Instr → Response
  | .recv data => plainResponse .ok (countValue (data.take n).length) []
  | _          => plainResponse .ok 0 []

/-- The instructions that append are ADD and RECV. -/
theorem eq_add_or_recv_of_appendsOf {n : Nat} {i : Instr} (h : (appendsOf n i).isSome = true) :
    (∃ b, i = .add b) ∨ ∃ data, i = .recv data := by
  cases i
  case add b => exact .inl ⟨b, rfl⟩
  case recv data => exact .inr ⟨data, rfl⟩
  all_goals cases h

/-- Appends change the storage, `WI`, `LEN`, `LC` and the responses, and nothing else. -/
theorem appended_eq (s : State) (bs : List Byte) (rs : List Response) :
    s.appended bs rs = { s with
      storage   := (pushBytes bs s).storage
      wi        := (pushBytes bs s).wi
      len       := (pushBytes bs s).len
      lc        := (pushBytes bs s).lc
      responses := s.responses ++ rs } := by
  simp [State.appended]

@[simp] theorem appended_cfg (s : State) (bs : List Byte) (rs : List Response) : (s.appended bs rs).cfg = s.cfg :=
  pushBytes_cfg s bs

theorem appended_contents (s : State) (bs : List Byte) (rs : List Response) :
    (s.appended bs rs).contents = (pushBytes bs s).contents := rfl

theorem appended_ringOk {s : State} (h : s.RingOk) (bs : List Byte) (rs : List Response) : (s.appended bs rs).RingOk :=
  pushBytes_ringOk bs h

theorem appended_nil (s : State) : s.appended [] [] = s := by
  simp [State.appended, pushBytes]

/-- The responses emitted have no part in an append. -/
theorem pushBytes_withResponses (bs : List Byte) (s : State) (rs : List Response) :
    pushBytes bs { s with responses := rs } = { pushBytes bs s with responses := rs } := by
  induction bs generalizing s with
  | nil => rfl
  | cons b bs ih =>
    have hb : pushByte b { s with responses := rs } = { pushByte b s with responses := rs } := by
      rw [pushByte_eq, pushByte_eq]
      rfl
    rw [pushBytes, pushBytes, hb, ih]

theorem appended_appended (s : State) (bs bs' : List Byte) (rs rs' : List Response) :
    (s.appended bs rs).appended bs' rs' = s.appended (bs ++ bs') (rs ++ rs') := by
  simp only [State.appended, pushBytes_append, pushBytes_withResponses, List.append_assoc]

theorem exec_add (b : Byte) (s : State) : exec (.add b) s = .next (s.appended [b] [plainResponse .ok 0 []]) := by
  rw [State.appended, ← pushBytes_responses s [b]]
  rfl

theorem exec_recv_appended {s : State} (h : s.cfg.recvAtomicity = .chunk) (data : List Byte) :
    exec (.recv data) s = .next (s.appended (data.take s.cfg.N)
      [plainResponse .ok (countValue (data.take s.cfg.N).length) []]) := by
  rw [exec_recv_of_chunk h, State.appended, ← pushBytes_responses s (data.take s.cfg.N)]
  rfl

/-- What an append of one step does (R103, R104). -/
theorem exec_oneStepAppend {i : Instr} {s : State} (h : OneStepAppend s.cfg i) :
    exec i s = .next (s.appended ((appendsOf s.cfg.N i).getD []) [appendAnswer s.cfg.N i]) := by
  rcases h with ⟨b, rfl⟩ | ⟨hm, data, rfl⟩
  · exact exec_add b s
  · exact exec_recv_appended hm data

/-- Appends of one step, performed in turn, append all their bytes in order and answer each (R18, R110). -/
theorem runInstrs_appends {is : List Instr} {s : State} (h : ∀ i ∈ is, OneStepAppend s.cfg i) :
    runInstrs is s = .next (s.appended (appendedBytes s.cfg.N is) (is.map (appendAnswer s.cfg.N))) := by
  induction is generalizing s with
  | nil => exact congrArg _ (appended_nil s).symm
  | cons i is ih =>
    rw [runInstrs, exec_oneStepAppend (h i List.mem_cons_self)]
    have hrest := ih (s := s.appended ((appendsOf s.cfg.N i).getD []) [appendAnswer s.cfg.N i])
      (fun j hj => by simpa using h j (List.mem_cons_of_mem _ hj))
    rw [appended_appended, appended_cfg] at hrest
    exact hrest

/-- Fewer than `N` slots on from a slot lies another one. -/
theorem add_mod_ne_self {n w i : Nat} (hw : w < n) (h0 : 0 < i) (hi : i < n) : (w + i) % n ≠ w := by
  rcases Nat.lt_or_ge (w + i) n with hlt | hge
  · rw [Nat.mod_eq_of_lt hlt]
    omega
  · rw [Nat.mod_eq_sub_mod hge, Nat.mod_eq_of_lt (by omega)]
    omega

/-- The `j`-th byte appended lies in the slot `WI + j` (`mod N`), where no byte of the same appends comes to lie over
another (R100, R104). -/
theorem pushBytes_read_written {s : State} (bs : List Byte) (h : s.RingOk) (hN : bs.length ≤ s.cfg.N) {j : Nat}
    (hj : j < bs.length) : (pushBytes bs s).storage.read ((s.wi + j) % s.cfg.N) = bs[j] := by
  induction bs generalizing s j with
  | nil => exact absurd hj (Nat.not_lt_zero j)
  | cons b bs ih =>
    rw [List.length_cons] at hN hj
    have hnext : ∀ i, ((pushByte b s).wi + i) % (pushByte b s).cfg.N = (s.wi + (i + 1)) % s.cfg.N := by
      intro i
      rw [pushByte_wi, pushByte_cfg, Nat.mod_add_mod, Nat.add_assoc, Nat.add_comm 1]
    have hring := pushByte_ringOk b h
    cases j with
    | zero =>
      obtain ⟨hwf, hwi, -⟩ := h
      have hlater : ∀ i, i < bs.length → ((pushByte b s).wi + i) % (pushByte b s).cfg.N ≠ s.writeSlot := by
        intro i hi
        rw [hnext, State.writeSlot, Nat.mod_eq_of_lt hwi]
        exact add_mod_ne_self hwi (by omega) (by omega)
      have hread := pushBytes_read bs hring _ hlater
      rw [pushByte_storage, Memory.read_write _ _ _ _ hwf, if_pos rfl] at hread
      exact hread
    | succ j =>
      rw [← hnext]
      exact ih hring (by rw [pushByte_cfg]; omega) (by omega)

/-- The line count of no more appends than fit: the bytes they evict were all held before (R6, R100). -/
theorem pushBytes_lc_of_le {s : State} (bs : List Byte) (h : s.RingOk) (hN : bs.length ≤ s.cfg.N) :
    (pushBytes bs s).lc = s.lc
      - (if s.cfg.lineEvict = .fix then
          BitVec.ofNat 32 ((s.contents.take (s.len + bs.length - s.cfg.N)).count newline) else 0)
      + BitVec.ofNat 32 (bs.count newline) := by
  rw [pushBytes_lc bs h, List.take_append_of_le_length (by rw [s.contents_length]; omega)]

/-! ### POP and PEEKAT, by the sequence held (R101, R102) -/

/-- POP on an empty buffer (R105). -/
theorem exec_pop_of_nil {s : State} (h : s.contents = []) :
    exec .pop s = .next (s.answered (plainResponse .empty emptyValue [])) := by
  have hlen : s.len = 0 := by rw [← s.contents_length, h]; rfl
  simp only [exec, execPop, popByte, if_pos hlen]
  rfl

/-- POP on a sequence with a head removes that byte and answers it (R101, R105). -/
theorem exec_pop_of_cons {s : State} (h : s.RingOk) {b : Byte} {q : List Byte} (hq : s.contents = b :: q) :
    exec .pop s = .next (s.removed 1 (plainResponse .ok (byteValue b) [])) := by
  have hhead : (popByte s).1 = some b := by rw [popByte_fst, hq]; rfl
  rw [← respond_popBytes h]
  simp only [exec, execPop, hhead]
  rfl

/-- PEEKAT answers with the byte of the sequence at the position asked (R102, R106). -/
theorem exec_peekat_eq (i : Half) (s : State) : exec (.peekat i) s = .next (respondByte s.contents[i.toNat]? s) := by
  rw [← peekByte_eq]
  rfl

/-! ### From the empty buffer (R110, R111) -/

/-- Appends to an empty buffer leave the last `N` of their bytes (R110). -/
theorem pushBytes_contents_of_empty {s : State} (h : s.RingOk) (h0 : s.len = 0) (bs : List Byte) :
    (pushBytes bs s).contents = bs.drop (bs.length - s.cfg.N) := by
  rw [pushBytes_contents bs h, State.contents_eq_nil h0, h0, Nat.zero_add, List.nil_append]

theorem appendedBytes_map_add (n : Nat) (bs : List Byte) : appendedBytes n (bs.map Instr.add) = bs := by
  rw [appendedBytes, List.flatMap_map]
  exact List.flatMap_singleton' bs

theorem runInstrs_append {is : List Instr} {s t : State} (h : runInstrs is s = .next t) (js : List Instr) :
    runInstrs (is ++ js) s = runInstrs js t := by
  induction is generalizing s with
  | nil =>
    cases h
    rfl
  | cons i is ih =>
    simp only [List.cons_append, runInstrs] at h ⊢
    cases he : exec i s with
    | next u =>
      rw [he] at h
      exact ih h
    | fault r => cases r
    | refused r =>
      rw [he] at h
      cases h

/-- As many POPs as bytes held return them all, oldest first, and leave the buffer empty (R101, R105). -/
theorem runInstrs_pops {bs : List Byte} {s : State} (h : s.RingOk) (hq : s.contents = bs) :
    ∃ t, runInstrs (List.replicate bs.length .pop) s = .next t ∧ t.contents = [] ∧
      t.responses = s.responses ++ bs.map (fun b => plainResponse .ok (byteValue b) []) := by
  induction bs generalizing s with
  | nil => exact ⟨s, rfl, hq, (List.append_nil _).symm⟩
  | cons b bs ih =>
    have hrest : (s.removed 1 (plainResponse .ok (byteValue b) [])).contents = bs := by
      rw [removed_contents h, hq]
      rfl
    obtain ⟨t, ht, hnil, hans⟩ := ih (removed_ringOk h 1 _) hrest
    refine ⟨t, ?_, hnil, ?_⟩
    · rw [List.length_cons, List.replicate_succ, runInstrs, exec_pop_of_cons h hq]
      exact ht
    · rw [hans, State.removed, List.map_cons, List.append_assoc, List.singleton_append]

end Sys2Proof.Machine

namespace Sys2Proof

open Machine

/-- Settles O13: ADD is one append and its answer. -/
theorem addAppendsOneByte : Obligations.AddAppendsOneByte := by
  intro b s h
  have hlen : (pushBytes [b] s).len = if s.len = s.cfg.N then s.cfg.N else s.len + 1 := by
    rw [pushBytes, pushBytes, pushByte_len]
    exact ite_congr rfl id fun _ => rfl
  refine ⟨_, exec_add b s, ?_, fun a => ?_, State.writeSlot_eq h.ring, ?_⟩
  · rw [← hlen, ← pushByte_lc_head b h.ring, ← pushByte_wi s b]
    exact appended_eq _ _ _
  · obtain ⟨hwf, -, -⟩ := h.ring
    rw [← Memory.read_write _ _ _ _ hwf, ← pushByte_storage]
    rfl
  · rw [appended_contents, pushBytes, pushBytes, pushByte_contents b h.ring]
    congr 1
    obtain ⟨-, -, hle⟩ := h.ring
    split_ifs with hf
    · rw [hf, Nat.add_sub_cancel_left, List.drop_one]
    · rw [show s.len + 1 - s.cfg.N = 0 by omega, List.drop_zero]

/-- Settles O14: one-step RECV is as many appends as fit, and the bytes they evict were all held before. -/
theorem chunkRecvAppendsItsFirstBytes : Obligations.ChunkRecvAppendsItsFirstBytes := by
  intro data s h hm k
  have hkN : k ≤ s.cfg.N := Nat.min_le_right _ _
  have hlen : (data.take k).length = k := List.length_take_of_le (Nat.min_le_left _ _)
  have htake : data.take s.cfg.N = data.take k := by
    rw [List.take_eq_take_min, Nat.min_comm]
  have hexec := exec_recv_appended hm data
  rw [htake, hlen] at hexec
  refine ⟨_, hexec, ?_, fun j hj => ?_, fun a ha => ?_, ?_⟩
  · have hwi := pushBytes_wi (data.take k) h.ring
    have hlen' := pushBytes_len (data.take k) h.ring
    have hlc := pushBytes_lc_of_le (data.take k) h.ring (hlen.trans_le hkN)
    rw [hlen] at hwi hlen' hlc
    rw [← hwi, ← hlen', ← hlc]
    exact appended_eq _ _ _
  · have hj' : j < (data.take k).length := hj.trans_eq hlen.symm
    have hbyte : (data.take k)[j] = data.getD j 0 := by
      rw [List.getElem_take, List.getD_eq_getElem]
    exact (pushBytes_read_written _ h.ring (hlen.trans_le hkN) hj').trans hbyte
  · exact pushBytes_read _ h.ring a (by rwa [hlen])
  · rw [appended_contents, pushBytes_contents _ h.ring, hlen]

/-- Settles O17: a POP of a held byte is the removal of one, which counts out the head alone. -/
theorem popReturnsTheOldestByte : Obligations.PopReturnsTheOldestByte := by
  intro s h
  refine ⟨exec_pop_of_nil, fun b q hq => ⟨_, exec_pop_of_cons h.ring hq, ?_, ?_⟩⟩
  · rw [removed_contents h.ring, hq]
    rfl
  · have hlc : s.lc - BitVec.ofNat 32 ((s.contents.take 1).count newline) = if b = newline then s.lc - 1 else s.lc := by
      rw [hq]
      by_cases hb : b = newline <;> simp [hb]
    rw [← hlc]
    rfl

/-- Settles O18: a position is below `LEN` where the sequence has a byte there. -/
theorem peekatReadsTheByteAsked : Obligations.PeekatReadsTheByteAsked := by
  intro i s
  rw [exec_peekat_eq]
  refine ⟨fun b hb => ?_, fun hlen => ?_⟩
  · rw [hb]
    rfl
  · rw [List.getElem?_eq_none (by simpa using hlen)]
    rfl

/-- Settles O22: the states CLEAR and RESET leave differ in `WI` alone, which no later response shows. -/
theorem clearAndResetAnswerAlikeEverAfter : Obligations.ClearAndResetAnswerAlikeEverAfter := by
  intro s c r n h hc hr c' hrun
  have hsame : c.Indistinguishable r := by
    cases hc
    cases hr
    exact ⟨rfl, rfl, rfl, rfl, rfl, rfl, rfl, rfl, rfl, rfl⟩
  obtain ⟨hnext, -⟩ := indistinguishableStatesAnswerAlike n c r (exec_inv h hc) (exec_inv h hr) hsame
  obtain ⟨r', hr', hres, -⟩ := hnext c' hrun
  exact ⟨r', hr', hres⟩

/-- Settles O24: the appends are appends of all their bytes in order. -/
theorem lengthLawOfAppends : Obligations.LengthLawOfAppends := by
  intro is s h h0 happ hmode
  have hstep : ∀ i ∈ is, OneStepAppend s.cfg i := by
    intro i hi
    rcases hmode with hm | hadd
    · exact (eq_add_or_recv_of_appendsOf (happ i hi)).imp_right fun hdata => ⟨hm, hdata⟩
    · exact .inl (hadd i hi)
  refine ⟨_, runInstrs_appends hstep, ?_, pushBytes_contents_of_empty h.ring h0 _⟩
  exact (pushBytes_len _ h.ring).trans (by rw [h0, Nat.zero_add])

/-- Settles O25: the ADDs leave their bytes in order, and each POP takes the head. -/
theorem roundTripLawOfAppendsAndPops : Obligations.RoundTripLawOfAppendsAndPops := by
  intro bs s h h0 hN
  have hadds := runInstrs_appends (is := bs.map Instr.add) (s := s) (by simp [OneStepAppend])
  rw [appendedBytes_map_add] at hadds
  have hq : (s.appended bs ((bs.map Instr.add).map (appendAnswer s.cfg.N))).contents = bs := by
    rw [appended_contents, pushBytes_contents_of_empty h.ring h0, Nat.sub_eq_zero_of_le hN, List.drop_zero]
  obtain ⟨t, hpops, hnil, hres⟩ := runInstrs_pops (appended_ringOk h.ring bs _) hq
  refine ⟨t.answered (plainResponse .empty emptyValue []), ?_, ?_⟩
  · rw [List.append_assoc, runInstrs_append hadds, runInstrs_append hpops, runInstrs, exec_pop_of_nil hnil]
    rfl
  · have hans : (bs.map Instr.add).map (appendAnswer s.cfg.N) = List.replicate bs.length (plainResponse .ok 0 []) := by
      simp [appendAnswer, Function.comp_def]
    rw [State.answered, hres, State.appended, hans]
    rfl

/-- Settles O19: a length is at most `N`, which fits 32 bits. -/
theorem lengthReturnsTheLength : Obligations.LengthReturnsTheLength := by
  intro s h
  obtain ⟨-, -, hle⟩ := h.ring
  have hN := s.cfg.N_le
  have hv : (countValue s.len).toNat = s.len := by
    rw [countValue, BitVec.toNat_ofNat]
    exact Nat.mod_eq_of_lt (by omega)
  exact ⟨countValue s.len, rfl, hv, hv.trans_le hle⟩

/-- Settles O20: the equation of CLEAR, and `LEN = 0` is the empty sequence. -/
theorem clearEmptiesTheBuffer : Obligations.ClearEmptiesTheBuffer :=
  fun _ => ⟨_, rfl, State.contents_eq_nil rfl, rfl⟩

/-- Settles O21: the equation of RESET, and `LEN = 0` is the empty sequence. -/
theorem resetCommandZeroesTheRegisters : Obligations.ResetCommandZeroesTheRegisters :=
  fun _ => ⟨_, rfl, State.contents_eq_nil rfl, rfl⟩

end Sys2Proof

/-! ## Lines: the line reads and their truncation (R140 to R145), and the line count while no newline is evicted (R144) -/

namespace Sys2Proof.Machine

/-! ### The first line of a sequence -/

/-- The answer of a line read with `maxLen = m` on the sequence `q`: the first line cut to `m - 1` bytes and ended by a
zero byte, and its length (R142, R143). -/
def lineAnswer (m : Half) (q : List Byte) : Response :=
  plainResponse .ok (countValue ((firstLine q).take (m.toNat - 1)).length) ((firstLine q).take (m.toNat - 1) ++ [0x00])

theorem textLen_eq_length (m : Half) (s : State) :
    textLen m s = ((firstLine s.contents).take (m.toNat - 1)).length := by
  rw [textLen_eq, List.length_take, Nat.min_comm]

/-- The answer as the model computes it: the first bytes held, as many as the text returned has. -/
theorem lineAnswer_contents (m : Half) (s : State) : lineAnswer m s.contents =
    plainResponse .ok (countValue (textLen m s)) (s.contents.take (textLen m s) ++ [0x00]) := by
  rw [take_textLen, textLen_eq_length]
  rfl

theorem textLen_le_lineSpan (m : Half) (s : State) : textLen m s ≤ lineSpan s := by
  rw [textLen_eq, lineSpan_eq]
  exact (Nat.min_le_left _ _).trans (Nat.le_add_right _ _)

/-- The bytes READLINE removes hold the newline that ends the line, if there is one, and no other. -/
theorem count_newline_take_lineAndEnd (q : List Byte) :
    (q.take (lineAndEnd q)).count newline = if newline ∈ q then 1 else 0 := by
  have htext : (firstLine q).count newline = 0 := List.count_eq_zero_of_not_mem (newline_not_mem_firstLine q)
  rw [lineAndEnd]
  split_ifs with h
  · rw [List.take_add_one, ← firstLine_eq_take, getElem?_firstLine q h, List.count_append, htext]
    rfl
  · rw [Nat.add_zero, ← firstLine_eq_take, htext]

/-- Cut to fewer than `2 ^ 16` bytes, the text's length is its `value` unchanged (R145). -/
theorem toNat_countValue_line (m : Half) (q : List Byte) :
    (countValue ((firstLine q).take (m.toNat - 1)).length).toNat = ((firstLine q).take (m.toNat - 1)).length := by
  have hm := m.isLt
  have hcut : ((firstLine q).take (m.toNat - 1)).length ≤ m.toNat - 1 := List.length_take_le _ _
  rw [countValue, BitVec.toNat_ofNat]
  exact Nat.mod_eq_of_lt (by omega)

/-! ### PEEKLINE and READLINE, an equation per case (R142, R143) -/

theorem exec_peekline_zero (s : State) :
    exec (.peekline 0) s = .next (s.answered (plainResponse .illegal 0 [])) := rfl

theorem exec_peekline_of_ne {m : Half} (hm : m ≠ 0) (s : State) :
    exec (.peekline m) s = .next (s.answered (lineAnswer m s.contents)) := by
  simp only [exec, execPeekline, if_neg hm, peekBytes_eq, lineAnswer_contents]
  rfl

theorem exec_readline_zero (s : State) :
    exec (.readline 0) s = .next (s.answered (plainResponse .illegal 0 [])) := rfl

/-- READLINE answers as PEEKLINE and removes the whole line, whatever `m` is. -/
theorem exec_readline_of_ne {m : Half} (hm : m ≠ 0) {s : State} (h : s.RingOk) :
    exec (.readline m) s = .next (s.removed (lineAndEnd s.contents) (lineAnswer m s.contents)) := by
  have htext : (bytesOf (popBytes (lineSpan s) s).1).take (textLen m s) = s.contents.take (textLen m s) := by
    rw [bytesOf_popBytes _ h, List.take_take, Nat.min_eq_left (textLen_le_lineSpan m s)]
  have hspan : lineAndEnd s.contents = lineSpan s := (lineSpan_eq s).symm
  simp only [exec, execReadline, if_neg hm, htext, respond_popBytes h, hspan, lineAnswer_contents]
  rfl

/-- Removing the first line counts out its newline, if there is one. -/
theorem removed_lineAndEnd (s : State) (r : Response) :
    s.removed (lineAndEnd s.contents) r =
      { s with
        len       := s.len - lineAndEnd s.contents
        lc        := if newline ∈ s.contents then s.lc - 1 else s.lc
        responses := s.responses ++ [r] } := by
  rw [State.removed, count_newline_take_lineAndEnd]
  split_ifs <;> simp

/-! ### The line count stays exact (R27, R144) -/

/-- Whether the line count is exact depends on the sequence held and on `LC`. -/
theorem lineCountExact_congr {s t : State} (hq : t.contents = s.contents) (hlc : t.lc = s.lc)
    (hex : s.LineCountExact) : t.LineCountExact := by
  rwa [State.LineCountExact, State.newlines, hq, hlc]

/-- A buffer emptied with its line count is exact. -/
theorem lineCountExact_of_empty {t : State} (hlen : t.len = 0) (hlc : t.lc = 0) : t.LineCountExact := by
  rw [State.LineCountExact, State.newlines, State.contents_eq_nil hlen, hlc]
  rfl

/-- A removal counts out the newlines it takes. -/
theorem removed_exact {s : State} (h : s.RingOk) (hex : s.LineCountExact) (n : Nat) (r : Response) :
    (s.removed n r).LineCountExact := by
  have hcount := congrArg (BitVec.ofNat 32) (count_take_add_count_drop n s.contents)
  rw [BitVec.ofNat_add] at hcount
  rw [lineCountExact_iff h, State.newlines] at hex
  rw [lineCountExact_iff (removed_ringOk h n r), State.newlines, removed_contents h]
  rw [State.removed]
  linear_combination hex - hcount

/-- Under either policy, appends that evict no newline count in the newlines they bring, and none is lost. -/
theorem pushBytes_exact {s : State} (h : s.RingOk) (hex : s.LineCountExact) {bs : List Byte}
    (hev : s.EvictsNoNewline bs) : (pushBytes bs s).LineCountExact := by
  have hlost := List.count_eq_zero_of_not_mem hev
  have hcount := count_take_add_count_drop (s.len + bs.length - s.cfg.N) (s.contents ++ bs)
  rw [hlost, Nat.zero_add, List.count_append] at hcount
  rw [lineCountExact_iff h, State.newlines] at hex
  rw [lineCountExact_iff (pushBytes_ringOk bs h), State.newlines, pushBytes_contents bs h, pushBytes_lc bs h, hlost,
    hcount, hex, BitVec.ofNat_add]
  simp

/-- A byte step of a RECV appends the next byte left, if there is one. -/
theorem recvStep_exact {s : State} (h : s.RingOk) (hex : s.LineCountExact) {r : RecvTransfer}
    (hev : s.EvictsNoNewline (r.rest.take 1)) : (recvStep r s).LineCountExact := by
  rcases recvStep_cases r s with ⟨b, c, bs, hrest, hs⟩ | ⟨hlen, hs⟩
  · rw [hrest] at hev
    rw [hs]
    exact lineCountExact_congr (setTransfer_contents _ _) (setTransfer_lc _ _) (pushBytes_exact h hex (bs := [b]) hev)
  · rw [List.take_of_length_le hlen] at hev
    rw [hs]
    exact lineCountExact_congr (setTransfer_contents _ _) (setTransfer_lc _ _) (pushBytes_exact h hex hev)

theorem firstAppends_of_oneStepAppend {c : Config} {i : Instr} (h : OneStepAppend c i) :
    firstAppends c i = (appendsOf c.N i).getD [] := by
  rcases h with ⟨b, rfl⟩ | ⟨hm, -⟩
  · cases hm : c.recvAtomicity with
    | chunk => exact firstAppends_of_chunk hm _
    | byte => exact firstAppends_of_byte hm _
  · exact firstAppends_of_chunk hm i

/-- An instruction appends nothing, or appends in one step, or is a RECV performed byte by byte (R45). -/
theorem appends_cases (c : Config) (i : Instr) :
    appendsOf c.N i = none ∨ OneStepAppend c i ∨ c.recvAtomicity = .byte ∧ ∃ data, i = .recv data := by
  cases happ : appendsOf c.N i with
  | none => exact .inl rfl
  | some bs =>
    rcases eq_add_or_recv_of_appendsOf (Option.isSome_of_mem happ) with hadd | hdata
    · exact .inr (.inl (.inl hadd))
    · cases hm : c.recvAtomicity with
      | chunk => exact .inr (.inl (.inr ⟨hm, hdata⟩))
      | byte => exact .inr (.inr ⟨rfl, hdata⟩)

/-- An instruction that is no append only removes bytes, or empties the buffer. -/
theorem exec_exact_of_appendsNothing {i : Instr} {s t : State} (h : s.RingOk) (hi : appendsOf s.cfg.N i = none)
    (hex : s.LineCountExact) (he : exec i s = .next t) : t.LineCountExact := by
  rcases exec_cases h he with ⟨n, r, d, rfl⟩ | ⟨bs, r, hbs, -⟩ | ⟨data, rfl, -⟩ | ⟨r, -, rfl⟩ | ⟨r, -, rfl⟩
  · exact removed_exact h hex n r
  · rw [hi] at hbs; cases hbs
  · cases hi
  · exact lineCountExact_of_empty rfl rfl
  · exact lineCountExact_of_empty rfl rfl

/-- An instruction whose first step evicts no newline completes and keeps the line count exact. -/
theorem exec_exact {i : Instr} {s : State} (h : s.RingOk) (hex : s.LineCountExact)
    (hev : s.EvictsNoNewline (firstAppends s.cfg i)) : ∃ t, exec i s = .next t ∧ t.LineCountExact := by
  rcases appends_cases s.cfg i with hnone | hone | ⟨hm, data, rfl⟩
  · obtain ⟨t, he, -⟩ := exec_answers (i := i) (s := s) (.inr (by rintro data rfl; cases hnone))
    exact ⟨t, he, exec_exact_of_appendsNothing h hnone hex he⟩
  · rw [firstAppends_of_oneStepAppend hone] at hev
    exact ⟨_, exec_oneStepAppend hone, lineCountExact_congr rfl rfl (pushBytes_exact h hex hev)⟩
  · rw [firstAppends_of_byte hm] at hev
    exact ⟨_, exec_recv_of_byte hm data, recvStep_exact h hex hev⟩

/-! ### What the next step appends -/

section
variable {s : State} {a : Agent} {es : List Event} (hs : s.schedule = .serve a :: es)
include hs

theorem nextAppends_of_recv {r : RecvTransfer} (hr : (s.port a).recv = some r) : s.nextAppends = r.rest.take 1 := by
  simp only [State.nextAppends, hs, hr]

theorem nextAppends_of_instr {i : Instr} {rest : List PortItem} (hr : (s.port a).recv = none)
    (hd : decode (s.port a).queue = .instr i rest) : s.nextAppends = firstAppends s.cfg i := by
  simp only [State.nextAppends, hs, hr, hd]

end

/-- Each case of a step, by the bytes it appends (R45, R48). -/
theorem step_exact {s t : State} (h : s.Inv) (hev : s.EvictsNoNewline s.nextAppends) (hex : s.LineCountExact)
    (hstep : step s = .next t) : t.LineCountExact := by
  rcases step_cases hstep with ⟨-, rfl⟩ | ⟨d, es, -, rfl⟩ | ⟨a, es, hs, hserve⟩
  · exact hex
  · exact lineCountExact_of_empty rfl rfl
  rcases hserve with rfl | ⟨r, hr, rfl⟩ | ⟨e, rest, -, -, rfl⟩ | ⟨i, rest, hr, hd, he⟩
  · exact hex
  · rw [nextAppends_of_recv hs hr] at hev
    exact recvStep_exact (served_inv h a es).ring hex hev
  · exact lineCountExact_congr (setQueue_contents _ _ _) (setQueue_lc _ _ _) hex
  · rw [nextAppends_of_instr hs hr hd] at hev
    have hexec := exec_exact (i := selectFrame i ((s.served a es).setQueue a rest))
      (setQueue_inv (served_inv h a es) a rest).ring
      (lineCountExact_congr (setQueue_contents _ _ _) (setQueue_lc _ _ _) hex) (by simpa [State.EvictsNoNewline] using hev)
    obtain ⟨t', he', hex'⟩ := hexec
    rw [he] at he'
    cases he'
    exact hex'

end Sys2Proof.Machine

namespace Sys2Proof

open Machine

/-- Settles O50: only the bytes a step appends can evict, and where they evict no newline the policy has nothing to count. -/
theorem everyStepThatEvictsNoNewlineKeepsTheLineCountExact :
    Obligations.EveryStepThatEvictsNoNewlineKeepsTheLineCountExact :=
  fun _ _ => step_exact

/-- Settles O49: an instruction removes, empties, or appends bytes of which none evicts a newline. -/
theorem appendsThatLoseNoNewlineKeepTheLineCountExact : Obligations.AppendsThatLoseNoNewlineKeepTheLineCountExact :=
  fun _ _ h hev hex => exec_exact h.ring hex hev

/-- Settles O30: the two equations of PEEKLINE. -/
theorem peeklineReturnsTheFirstLine : Obligations.PeeklineReturnsTheFirstLine :=
  fun _ s => ⟨fun hm => hm ▸ exec_peekline_zero s, fun hm => exec_peekline_of_ne hm s⟩

/-- Settles O31: READLINE is the removal of the first line and its end, which hold at most one newline. -/
theorem readlineReturnsAndRemovesTheFirstLine : Obligations.ReadlineReturnsAndRemovesTheFirstLine :=
  fun _ s h => ⟨fun hm => hm ▸ exec_readline_zero s, fun hm =>
    ⟨_, exec_readline_of_ne hm h.ring, removed_contents h.ring _ _, removed_lineAndEnd s _⟩⟩

/-- Settles O32: the answer depends on the sequence held, which PEEKLINE leaves, and the removal on nothing else. -/
theorem truncationLawOfLineReads : Obligations.TruncationLawOfLineReads := by
  intro m s h hm
  refine ⟨_, _, _, exec_peekline_of_ne hm s, exec_readline_of_ne hm h.ring, ?_, ?_, ?_, ?_, fun m' u hm' hu => ?_⟩
  · exact List.append_assoc _ _ _
  · rw [toNat_countValue_line]
    exact List.length_take_le _ _
  · rw [toNat_countValue_line, List.length_append, List.length_singleton]
  · exact List.getLast?_concat
  · rw [exec_readline_of_ne hm' h.ring] at hu
    cases hu
    exact removed_contents h.ring _ _

/-- Settles O29: the equation of LINES, and an exact line count is the count of newlines held. -/
theorem linesReturnsTheLineCount : Obligations.LinesReturnsTheLineCount := fun _ => ⟨rfl, id⟩

end Sys2Proof

/-! ## The frame decoder: the checksum, the fields of a frame, and what READCMD does at each head (R170 to R185) -/

namespace Sys2Proof.Machine

/-! ### The checksum (R172 to R174) -/

theorem toNat_checksum (xs : List Byte) : (checksum xs).toNat = 255 - (xs.map BitVec.toNat).sum % 256 := by
  rw [checksum, BitVec.toNat_ofNat]
  exact Nat.mod_eq_of_lt (by omega)

/-- The checksum byte is the one that completes the sum of the bytes to 255 (R174). -/
theorem eq_checksum_iff {xs : List Byte} {c : Byte} :
    c = checksum xs ↔ ((xs ++ [c]).map BitVec.toNat).sum % 256 = 255 := by
  have hc := c.isLt
  simp only [← BitVec.toNat_inj, toNat_checksum, List.map_append, List.sum_append, List.map_singleton,
    List.sum_singleton]
  omega

/-- Replacing one byte moves the sum from that byte's value to the new one's. -/
theorem sum_map_set {xs : List Byte} {j : Nat} {a : Byte} (ha : xs[j]? = some a) (b : Byte) :
    ((xs.set j b).map BitVec.toNat).sum + a.toNat = (xs.map BitVec.toNat).sum + b.toNat := by
  induction xs generalizing j with
  | nil => cases ha
  | cons x xs ih =>
    cases j with
    | zero =>
      obtain rfl : x = a := Option.some.inj ha
      simp only [List.set_cons_zero, List.map_cons, List.sum_cons]
      omega
    | succ j =>
      have htail := ih (j := j) ha
      simp only [List.set_cons_succ, List.map_cons, List.sum_cons]
      omega

theorem wholeFrame_length (k : FrameKind) (p : List Byte) : (wholeFrame k p).length = p.length + 3 := by
  simp [wholeFrame]

theorem sum_wholeFrame (k : FrameKind) (p : List Byte) : ((wholeFrame k p).map BitVec.toNat).sum % 256 = 255 :=
  eq_checksum_iff.1 rfl

/-- One byte changed to another value moves the sum off 255, since two bytes that agree mod 256 are equal (R174). -/
theorem sum_set_wholeFrame_ne {k : FrameKind} {p : List Byte} {j : Nat} {b : Byte} (hj : j < p.length + 3)
    (hb : (wholeFrame k p)[j]? ≠ some b) : (((wholeFrame k p).set j b).map BitVec.toNat).sum % 256 ≠ 255 := by
  obtain ⟨a, ha⟩ : ∃ a, (wholeFrame k p)[j]? = some a :=
    ⟨_, List.getElem?_eq_getElem (by rwa [wholeFrame_length])⟩
  have hne : a.toNat ≠ b.toNat := fun h => hb (by rw [ha, BitVec.toNat_inj.1 h])
  have hset := sum_map_set ha b
  have hsum := sum_wholeFrame k p
  have := a.isLt
  have := b.isLt
  omega

/-! ### Word assembly (R175) -/

/-- A byte shifted to place `i` of a word, place 0 lowest. -/
def placed (b : Byte) (i : Nat) : Word := b.setWidth 32 <<< (8 * i)

theorem placed_zero (b : Byte) : placed b 0 = b.setWidth 32 := BitVec.shiftLeft_zero _

/-- Place `j` of a word shows a byte placed there, and nothing of a byte placed elsewhere. -/
theorem extract_placed (b : Byte) (i : Nat) {j : Nat} (hj : j < 4) :
    (placed b i).extractLsb' (8 * j) 8 = if i = j then b else 0 := by
  refine BitVec.eq_of_getLsbD_eq fun l hl => ?_
  rw [placed, BitVec.getLsbD_extractLsb', BitVec.getLsbD_shiftLeft, BitVec.getLsbD_setWidth]
  rcases lt_trichotomy i j with h | rfl | h
  · rw [if_neg h.ne, BitVec.getLsbD_of_ge b _ (by omega)]
    simp
  · rw [if_pos rfl, Nat.add_sub_cancel_left]
    simp [hl, show 8 * i + l < 32 by omega, show l < 32 by omega]
  · rw [if_neg h.ne']
    simp [show 8 * j + l < 8 * i by omega]

/-- Four bytes as one word, byte 0 lowest. -/
def wordOfBytes (b : Nat → Byte) : Word := placed (b 0) 0 ||| placed (b 1) 1 ||| placed (b 2) 2 ||| placed (b 3) 3

theorem extract_wordOfBytes (b : Nat → Byte) {j : Nat} (hj : j < 4) :
    (wordOfBytes b).extractLsb' (8 * j) 8 = b j := by
  simp only [wordOfBytes, BitVec.extractLsb'_or, extract_placed _ _ hj]
  interval_cases j <;> simp

theorem wordAt_le (p : List Byte) (o : Nat) : wordAt .le p o = wordOfBytes fun j => p.getD (o + j) 0 := by
  rw [wordOfBytes, placed_zero]
  rfl

theorem or_reverse (w x y z : Word) : w ||| x ||| y ||| z = z ||| y ||| x ||| w := by ac_rfl

/-- Big-endian is little-endian of the same bytes in reverse. -/
theorem wordAt_be (p : List Byte) (o : Nat) : wordAt .be p o = wordOfBytes fun j => p.getD (o + (3 - j)) 0 := by
  rw [wordOfBytes, or_reverse, placed_zero]
  rfl

/-! ### The head of the buffer (R170) -/

theorem hasSentinel_of_cons {s : State} {q : List Byte} (hq : s.contents = sentinel :: q) : hasSentinel s = true := by
  rw [hasSentinel_eq, hq]
  rfl

theorem hasSentinel_of_head_ne {s : State} (hq : s.contents.head? ≠ some sentinel) : hasSentinel s = false := by
  rw [hasSentinel_eq]
  exact decide_eq_false hq

/-- The frame a step selects stands at the head by its first two bytes. -/
theorem contents_of_frameHead {s : State} {k : FrameKind} (hk : frameHead s = some k) :
    ∃ q, s.contents = sentinel :: k.typeByte :: q := by
  unfold frameHead at hk
  split_ifs at hk with hs
  obtain ⟨t, ht, hkind⟩ := Option.bind_eq_some_iff.1 hk
  rw [hasSentinel_eq, decide_eq_true_eq] at hs
  obtain ⟨q, hq⟩ := List.head?_eq_some_iff.1 hs
  rw [peekByte_eq, hq, List.getElem?_cons_succ, ← List.head?_eq_getElem?] at ht
  obtain ⟨rest, rfl⟩ := List.head?_eq_some_iff.1 ht
  exact ⟨rest, by rw [hq, typeByte_of_frameKindOf hkind]⟩

/-! ### READCMD, an equation per head (R178, R179, R185) -/

theorem exec_readcmd_robust {s : State} (hm : s.cfg.shortFrame = .robust) :
    exec .readcmd s = .next (readcmdRobust s) := by
  simp only [exec, execReadcmd, hm]

theorem exec_readcmd_reference {s : State} (hm : s.cfg.shortFrame = .reference) :
    exec .readcmd s = .next (readcmdReference s) := by
  simp only [exec, execReadcmd, hm]

theorem exec_readcmd_of_head_ne {s : State} (hq : s.contents.head? ≠ some sentinel) :
    exec .readcmd s = .next (s.answered (plainResponse .noCmd 0 [])) := by
  have hs := hasSentinel_of_head_ne hq
  cases hm : s.cfg.shortFrame with
  | robust =>
    rw [exec_readcmd_robust hm, readcmdRobust, hs]
    rfl
  | reference =>
    rw [exec_readcmd_reference hm, readcmdReference, hs]
    rfl

/-- A lone sentinel is left where it is under `ROBUST`, since its type byte may still come (R178). -/
theorem exec_readcmd_of_sentinel_robust {s : State} (hm : s.cfg.shortFrame = .robust) (hq : s.contents = [sentinel]) :
    exec .readcmd s = .next (s.answered (plainResponse .insufficient 0 [])) := by
  have ht : peekByte 1 s = none := by rw [peekByte_eq, hq]; rfl
  rw [exec_readcmd_robust hm, readcmdRobust, hasSentinel_of_cons hq, ht]
  rfl

/-- A lone sentinel is removed under `REFERENCE`, and the read of its type byte finds nothing to remove (R179). -/
theorem exec_readcmd_of_sentinel_reference {s : State} (h : s.RingOk) (hm : s.cfg.shortFrame = .reference)
    (hq : s.contents = [sentinel]) : exec .readcmd s = .next (s.removed 1 (plainResponse .badType 1 [])) := by
  have ht : (popByte (popByte s).2).1 = none := by rw [popByte_popByte_fst h, hq]; rfl
  have hempty : (popByte s).2.len = 0 := by rw [popByte_len, ← s.contents_length, hq]; rfl
  have hpop : (popByte (popByte s).2).2 = (popBytes 1 s).2 := by rw [popByte, if_pos hempty]; rfl
  rw [exec_readcmd_reference hm, readcmdReference, hasSentinel_of_cons hq, ht, hpop, respond_popBytes h]
  rfl

/-- With a type byte behind the sentinel: an unrecognised one is removed with the sentinel, and at a recognised one
READCMD is the frame of its kind, under either policy (R178, R179). -/
theorem exec_readcmd_of_type {s : State} (h : s.RingOk) {t : Byte} {q : List Byte}
    (hq : s.contents = sentinel :: t :: q) :
    exec .readcmd s =
      .next ((frameKindOf t).elim (s.removed 2 (plainResponse .badType 2 [])) fun k => takeFrame k s) := by
  have hs := hasSentinel_of_cons hq
  have hbad : respond .badType 2 [] none (popBytes 2 s).2 = s.removed 2 (plainResponse .badType 2 []) :=
    respond_popBytes h 2 _ _ _ _
  cases hm : s.cfg.shortFrame with
  | robust =>
    have ht : peekByte 1 s = some t := by rw [peekByte_eq, hq]; rfl
    rw [exec_readcmd_robust hm, readcmdRobust, hs, ht, ← hbad]
    simp only [takeFrame, hm]
    cases frameKindOf t <;> rfl
  | reference =>
    have ht : (popByte (popByte s).2).1 = some t := by rw [popByte_popByte_fst h, hq]; rfl
    rw [exec_readcmd_reference hm, readcmdReference, hs, ht, ← hbad]
    simp only [takeFrame, hm]
    cases frameKindOf t <;> rfl

theorem exec_readcmd_of_badType {s : State} (h : s.RingOk) {t : Byte} {q : List Byte}
    (hq : s.contents = sentinel :: t :: q) (ht : payloadLen t = none) :
    exec .readcmd s = .next (s.removed 2 (plainResponse .badType 2 [])) := by
  rw [exec_readcmd_of_type h hq, payloadLen_eq_none.1 ht]
  rfl

section
variable {s : State} {k : FrameKind} {q : List Byte} (h : s.RingOk) (hq : s.contents = sentinel :: k.typeByte :: q)
include h hq

theorem exec_readcmd_of_kind : exec .readcmd s = .next (takeFrame k s) := by
  rw [exec_readcmd_of_type h hq, frameKindOf_typeByte]
  rfl

theorem exec_readcmd_of_short_robust (hm : s.cfg.shortFrame = .robust) (hl : s.len < k.payloadLen + 3) :
    exec .readcmd s = .next (s.answered (plainResponse .insufficient 0 [])) := by
  rw [exec_readcmd_of_kind h hq, takeFrame_short hm hl]

end

/-- The answer to a whole frame of kind `k` with payload `p`, by whether its checksum byte is right (R178). -/
def frameAnswer (o : FloatOrder) (k : FrameKind) (p : List Byte) : Bool → Response
  | true  =>
    { status := .ok, value := countValue (k.payloadLen + 3), data := p, frame := some (frameOf o k p) }
  | false => plainResponse .badChecksum (countValue (k.payloadLen + 3)) []

theorem frameAnswer_status (o : FloatOrder) (k : FrameKind) (p : List Byte) (valid : Bool) :
    (frameAnswer o k p valid).status = if valid then .ok else .badChecksum := by
  cases valid <;> rfl

/-- A whole frame at the head is removed and answered by its checksum byte, under either policy. -/
theorem exec_readcmd_of_whole {s : State} (h : s.RingOk) {k : FrameKind} {p rest : List Byte} {c : Byte}
    (hq : s.contents = sentinel :: k.typeByte :: (p ++ c :: rest)) (hp : p.length = k.payloadLen) :
    exec .readcmd s = .next (s.removed (k.payloadLen + 3)
      (frameAnswer s.cfg.floatOrder k p (decide (c = checksum (sentinel :: k.typeByte :: p))))) := by
  rw [exec_readcmd_of_kind h hq, takeFrame_whole h hq hp]
  by_cases hc : c = checksum (sentinel :: k.typeByte :: p)
  · rw [if_pos hc, decide_eq_true hc]
    rfl
  · rw [if_neg hc, decide_eq_false hc]
    rfl

/-- Both answers to a whole frame, written out as the outcome tables have them (R180). -/
theorem exec_readcmd_by_checksum {s : State} (h : s.RingOk) {k : FrameKind} {p rest : List Byte} {c : Byte}
    (hq : s.contents = sentinel :: k.typeByte :: (p ++ c :: rest)) (hp : p.length = k.payloadLen) :
    (c ≠ checksum (sentinel :: k.typeByte :: p) → exec .readcmd s =
      .next (s.removed (k.payloadLen + 3) (plainResponse .badChecksum (countValue (k.payloadLen + 3)) []))) ∧
    (c = checksum (sentinel :: k.typeByte :: p) → exec .readcmd s =
      .next (s.removed (k.payloadLen + 3)
        { status := .ok, value := countValue (k.payloadLen + 3), data := p,
          frame := some (frameOf s.cfg.floatOrder k p) })) := by
  rw [exec_readcmd_of_whole h hq hp]
  exact ⟨fun hc => by rw [decide_eq_false hc]; rfl, fun hc => by rw [decide_eq_true hc]; rfl⟩

/-- A whole frame at the head, whatever its bytes: their sum decides whether the checksum byte is right (R174). -/
theorem exec_readcmd_by_sum {s : State} (h : s.RingOk) {k : FrameKind} {q : List Byte}
    (hq : s.contents = sentinel :: k.typeByte :: q) (hl : k.payloadLen + 3 ≤ s.len) :
    exec .readcmd s = .next (s.removed (k.payloadLen + 3)
      (frameAnswer s.cfg.floatOrder k (q.take k.payloadLen)
        (decide (((s.contents.take (k.payloadLen + 3)).map BitVec.toNat).sum % 256 = 255)))) := by
  have hlt : k.payloadLen < q.length := by
    rw [← s.contents_length, hq, List.length_cons, List.length_cons] at hl
    omega
  have hframe : s.contents.take (k.payloadLen + 3) =
      (sentinel :: k.typeByte :: q.take k.payloadLen) ++ [q[k.payloadLen]] := by
    rw [hq, List.take_succ_cons, List.take_succ_cons, List.take_succ_eq_append_getElem hlt]
    rfl
  have hsplit : s.contents =
      sentinel :: k.typeByte :: (q.take k.payloadLen ++ q[k.payloadLen] :: q.drop (k.payloadLen + 1)) := by
    rw [hq, List.getElem_cons_drop, List.take_append_drop]
  rw [hframe, exec_readcmd_of_whole h hsplit (List.length_take_of_le hlt.le), decide_eq_decide.2 eq_checksum_iff]

/-! ### READCMD on a frame with bytes missing (R179) -/

/-- The answer of `REFERENCE` to a frame of kind `k` whose checksum byte is missing, `q` being what is held behind its
type byte: a draw for each missing payload byte, and then one in place of the comparison. -/
def drawnAnswer (s : State) (k : FrameKind) (q : List Byte) : Response :=
  let m := k.payloadLen - q.length
  let p := q ++ (List.range m).map (fun i => Config.drawByte (s.draws + i))
  if Config.drawMatch (s.draws + m) = true then
    { status := .ok, value := countValue s.len, data := p, frame := some (frameOf s.cfg.floatOrder k p) }
  else plainResponse .badChecksum (countValue s.len) []

theorem exec_readcmd_of_missing_reference {s : State} (h : s.RingOk) (hm : s.cfg.shortFrame = .reference)
    {k : FrameKind} {q : List Byte} (hq : s.contents = sentinel :: k.typeByte :: q) (hl : q.length ≤ k.payloadLen) :
    exec .readcmd s = .next
      { s.removed s.len (drawnAnswer s k q) with draws := s.draws + (k.payloadLen - q.length) + 1 } := by
  have hlen : s.len = 2 + q.length := by
    rw [← s.contents_length, hq, List.length_cons, List.length_cons]
    omega
  have hbody : (popBytes 2 s).2.contents = q := by rw [popBytes_contents 2 h, hq]; rfl
  have hbodyLen : (popBytes 2 s).2.len = q.length := by rw [← State.contents_length, hbody]
  have hframe : takeFrame k s = referenceBody k (popBytes 2 s).2 := by rw [takeFrame, hm]
  rw [exec_readcmd_of_kind h hq, hframe, referenceBody_short (popBytes_ringOk 2 h) (hbodyLen.trans_le hl)]
  simp only [hbody, hbodyLen, removed_popBytes h, popBytes_draws, popBytes_cfg, ← hlen, drawnAnswer]

/-! ### The two policies where no byte is missing (R179) -/

/-- The same block built with another `SHORT_FRAME_POLICY`. -/
def State.withPolicy (s : State) (m : ShortFramePolicy) : State := { s with cfg := { s.cfg with shortFrame := m } }

theorem withPolicy_self {s : State} {m : ShortFramePolicy} (hm : s.cfg.shortFrame = m) : s.withPolicy m = s := by
  subst hm
  rfl

theorem removed_withPolicy (s : State) (m : ShortFramePolicy) (n : Nat) (r : Response) :
    (s.withPolicy m).removed n r = (s.removed n r).withPolicy m := rfl

/-- READCMD has all the bytes it reads: no sentinel, an unrecognised type byte, or a whole frame at the head. -/
def State.NothingMissing (s : State) : Prop :=
  s.contents.head? ≠ some sentinel ∨ (∃ t rest, s.contents = sentinel :: t :: rest ∧ payloadLen t = none) ∨
    (∃ (k : FrameKind) (rest : List Byte), s.contents = sentinel :: k.typeByte :: rest ∧ k.payloadLen + 3 ≤ s.len)

/-- Where no byte is missing, what READCMD removes and answers does not depend on the policy. -/
theorem exec_readcmd_of_nothingMissing {s : State} (h : s.RingOk) (hq : s.NothingMissing) :
    ∃ n r, ∀ m, exec .readcmd (s.withPolicy m) = .next ((s.removed n r).withPolicy m) := by
  rcases hq with hq | ⟨t, rest, hq, ht⟩ | ⟨k, rest, hq, hl⟩
  · exact ⟨0, _, fun m => by
      rw [← removed_withPolicy, removed_zero]
      exact exec_readcmd_of_head_ne (s := s.withPolicy m) hq⟩
  · exact ⟨_, _, fun m => exec_readcmd_of_badType (s := s.withPolicy m) h hq ht⟩
  · exact ⟨_, frameAnswer s.cfg.floatOrder k (rest.take k.payloadLen)
      (decide (((s.contents.take (k.payloadLen + 3)).map BitVec.toNat).sum % 256 = 255)),
      fun m => exec_readcmd_by_sum (s := s.withPolicy m) h hq hl⟩

/-! ### One byte of a valid frame changed (R184) -/

theorem wholeFrame_append (k : FrameKind) (p rest : List Byte) : wholeFrame k p ++ rest =
    sentinel :: k.typeByte :: (p ++ [checksum (sentinel :: k.typeByte :: p)] ++ rest) := rfl

/-- A byte behind the type byte changed leaves the head as it is. -/
theorem set_wholeFrame_append (k : FrameKind) (p rest : List Byte) (i : Nat) (b : Byte) :
    (wholeFrame k p).set (i + 2) b ++ rest =
      sentinel :: k.typeByte :: ((p ++ [checksum (sentinel :: k.typeByte :: p)]).set i b ++ rest) := rfl

/-- A frame's bytes at the head, changed or not, are the oldest `P + 3` bytes held. -/
theorem take_contents_of_frame {s : State} {k : FrameKind} {f rest : List Byte} (hq : s.contents = f ++ rest)
    (hf : f.length = k.payloadLen + 3) : k.payloadLen + 3 ≤ s.len ∧ s.contents.take (k.payloadLen + 3) = f := by
  refine ⟨?_, by rw [hq, ← hf, List.take_left]⟩
  rw [← s.contents_length, hq, List.length_append, hf]
  exact Nat.le_add_right _ _

end Sys2Proof.Machine

namespace Sys2Proof

open Machine

/-- Settles O10: a frame is selected by the two bytes at the head at which READCMD performs it. -/
theorem readcmdIsTheFrameTypeItSelects : Obligations.ReadcmdIsTheFrameTypeItSelects := by
  intro s k h hk
  obtain ⟨q, hq⟩ := contents_of_frameHead hk
  rw [exec_readcmd_of_kind h.ring hq, exec_frameInstr]

/-- Settles O33: each formula by the value of its byte. -/
theorem checksumFormulasAgree : Obligations.ChecksumFormulasAgree := by
  intro xs
  refine ⟨toNat_checksum xs, ?_, ?_⟩
  · rw [← BitVec.toNat_inj, toNat_checksum, BitVec.toNat_not, BitVec.toNat_ofNat]
  · rw [toNat_checksum]
    omega

/-- Settles O34: the checksum completes the sum to 255, and one changed byte moves it. -/
theorem wholeFrameSumIs255 : Obligations.WholeFrameSumIs255 :=
  ⟨fun _ _ => eq_checksum_iff, fun _ _ _ _ _ _ hj hb => sum_set_wholeFrame_ne hj hb⟩

/-- Settles O35: byte `j` stands at place `j` under `LE` and at place `3 - j` under `BE`. -/
theorem wordAssemblyByFloatOrder : Obligations.WordAssemblyByFloatOrder := by
  intro p o ho j hj
  refine ⟨p.getD (o + j) 0, ?_, ?_, ?_⟩
  · rw [List.getElem?_eq_getElem (by omega), List.getD_eq_getElem _ _ (by omega)]
  · rw [wordAt_le, extract_wordOfBytes _ hj]
  · rw [wordAt_be, extract_wordOfBytes _ (by omega), show 3 - (3 - j) = j by omega]

/-- Settles O36: the sentinel test is a test of the head of the sequence. -/
theorem hascmdLooksAtTheOldestByte : Obligations.HascmdLooksAtTheOldestByte := by
  intro s
  have he : exec .hascmd s = .next (s.answered (plainResponse .ok (if hasSentinel s then 1 else 0) [])) := rfl
  rw [he, hasSentinel_eq]
  simp only [decide_eq_true_eq]

/-- Settles O37: the equation of READCMD at each head, under `ROBUST`. -/
theorem readcmdRobustOutcomes : Obligations.ReadcmdRobustOutcomes := fun _ h hm =>
  ⟨exec_readcmd_of_head_ne, exec_readcmd_of_sentinel_robust hm, fun _ _ => exec_readcmd_of_badType h.ring,
    fun _ _ hq => exec_readcmd_of_short_robust h.ring hq hm, fun _ _ _ _ => exec_readcmd_by_checksum h.ring⟩

/-- Settles O38: the equation of READCMD at each head, under `REFERENCE`. -/
theorem readcmdReferenceOutcomes : Obligations.ReadcmdReferenceOutcomes := fun _ h hm =>
  ⟨exec_readcmd_of_head_ne, exec_readcmd_of_sentinel_reference h.ring hm, fun _ _ => exec_readcmd_of_badType h.ring,
    fun _ _ => exec_readcmd_of_missing_reference h.ring hm, fun _ _ _ _ => exec_readcmd_by_checksum h.ring⟩

/-- Settles O41: the two bytes at the head say what READCMD performs, and the sum of a frame's bytes what it answers. -/
theorem corruptionLawOfFrames : Obligations.CorruptionLawOfFrames := by
  intro s k p rest h hm hp
  have hlength : (wholeFrame k p).length = k.payloadLen + 3 := by rw [wholeFrame_length, hp]
  refine ⟨fun hq => ?_, fun j b hj2 hj hb hq => ?_, fun b hb hq => ?_, fun b hb hq => ?_, fun k' _ hq => ?_⟩
  · obtain ⟨hl, hframe⟩ := take_contents_of_frame hq hlength
    refine ⟨_, exec_readcmd_by_sum h.ring (hq.trans (wholeFrame_append k p rest)) hl, ?_⟩
    rw [hframe, decide_eq_true (sum_wholeFrame k p)]
    rfl
  · obtain ⟨i, rfl⟩ := Nat.exists_eq_add_of_le' hj2
    obtain ⟨hl, hframe⟩ := take_contents_of_frame hq (List.length_set.trans hlength)
    rw [exec_readcmd_by_sum h.ring (hq.trans (set_wholeFrame_append k p rest i b)) hl, hframe,
      decide_eq_false (sum_set_wholeFrame_ne (hp ▸ hj) hb)]
    rfl
  · exact exec_readcmd_of_head_ne (by rw [hq]; exact fun hhead => hb (Option.some.inj hhead))
  · exact exec_readcmd_of_badType h.ring hq hb
  · refine ⟨exec_readcmd_of_short_robust h.ring hq hm, fun hl => ⟨_, exec_readcmd_by_sum h.ring hq hl, ?_⟩⟩
    rw [frameAnswer_status]
    simp only [decide_eq_true_eq]

/-- Settles O42: such a head is no sentinel, and READCMD asks that first under either policy. -/
theorem noSentinelConsumesNothing : Obligations.NoSentinelConsumesNothing := by
  intro s hs
  have hhead : s.contents.head? ≠ some sentinel := by
    rcases hs with hq | ⟨b, q, hq, hb⟩
    · rw [hq]
      exact (Option.some_ne_none _).symm
    · rw [hq]
      exact fun h => hb (Option.some.inj h)
  exact ⟨_, exec_readcmd_of_head_ne hhead, rfl, rfl⟩

/-- Settles O44: the removal and the answer are the same under every policy, the block's own among them. -/
theorem referenceAgreesWithRobustWhenNothingIsMissing : Obligations.ReferenceAgreesWithRobustWhenNothingIsMissing := by
  intro s h hm hq
  obtain ⟨n, r, hall⟩ := exec_readcmd_of_nothingMissing h.ring hq
  have href := hall .reference
  rw [withPolicy_self hm, withPolicy_self (s := s.removed n r) hm] at href
  exact ⟨_, href, hall .robust⟩

/-- Settles O40: the record of each type byte's kind. -/
theorem frameRecordOfEachType : Obligations.FrameRecordOfEachType := by
  refine fun o p => ⟨rfl, rfl, rfl, rfl, rfl, fun b0 b1 hp => ?_⟩
  subst hp
  rfl

end Sys2Proof

/-! ## Nothing stops the block (R220, R226) -/

namespace Sys2Proof.Machine

/-- Every instruction goes on, the first byte step of a RECV too, which is the one that may leave its response to later. -/
theorem exec_eq_next (i : Instr) (s : State) : ∃ t, exec i s = .next t := by
  by_cases h : s.cfg.recvAtomicity = .chunk ∨ ∀ data, i ≠ .recv data
  · obtain ⟨t, ht, -⟩ := exec_answers h
    exact ⟨t, ht⟩
  · push Not at h
    obtain ⟨hchunk, data, rfl⟩ := h
    cases hm : s.cfg.recvAtomicity with
    | chunk => exact absurd hm hchunk
    | byte => exact ⟨_, exec_recv_of_byte hm data⟩

/-- A step that serves an agent goes on, unless the agent's port breaks its format (R65). -/
theorem step_of_serve {s : State} {a : Agent} {es : List Event} (hs : s.schedule = .serve a :: es) :
    (∃ t, step s = .next t) ∨
      (step s = .refused .strayPortData ∧ (s.port a).recv = none ∧ decode (s.port a).queue = .stray) := by
  cases hr : (s.port a).recv with
  | some r => exact .inl ⟨_, step_of_recv hs hr⟩
  | none =>
    cases hd : decode (s.port a).queue with
    | incomplete => exact .inl ⟨_, step_of_incomplete hs hr hd⟩
    | illegal e rest => exact .inl ⟨_, step_of_illegal hs hr hd⟩
    | instr i rest =>
      rw [step_of_instr hs hr hd]
      exact .inl (exec_eq_next _ _)
    | stray => exact .inr ⟨step_of_stray hs hr hd, rfl, rfl⟩

end Sys2Proof.Machine

namespace Sys2Proof

open Machine

/-- Settles O9: a wait and a reset go on in every state, and a served agent's step but for the broken port. -/
theorem nothingStopsTheBlock : Obligations.NothingStopsTheBlock := by
  intro s
  cases hs : s.schedule with
  | nil => exact .inl ⟨s, by rw [step, hs]⟩
  | cons event es =>
    cases event with
    | reset during => exact .inl ⟨resetEvent during { s with schedule := es }, by rw [step, hs]⟩
    | serve a =>
      rcases step_of_serve hs with hnext | ⟨hrefused, hrecv, hstray⟩
      · exact .inl hnext
      · exact .inr ⟨hrefused, a, es, rfl, hrecv, hstray⟩

/-- Settles O12: what an instruction that answers leaves outside the buffer. -/
theorem everyInstructionCompletesWithOneResponse : Obligations.EveryInstructionCompletesWithOneResponse := by
  intro i s h
  obtain ⟨_, hexec, u, r, hu, rfl⟩ := exec_answers h
  exact ⟨u.answered r, r, hexec, congrArg (· ++ [r]) hu.responses, hu.cfg, hu.producer, hu.consumer, hu.schedule,
    hu.serving⟩

end Sys2Proof

/-! ## The parameters, the reset event and the stalled head (R250, R251, R255) -/

namespace Sys2Proof.Machine

/-! ### What keeps the parameters (R251) -/

theorem State.Answers.cfg_eq {s t : State} (h : s.Answers t) : t.cfg = s.cfg := by
  obtain ⟨u, r, hu, rfl⟩ := h
  exact hu.cfg

theorem recvStep_cfg (r : RecvTransfer) (s : State) : (recvStep r s).cfg = s.cfg := by
  obtain ⟨hcfg, -⟩ := recvStep_outside r s
  exact hcfg

/-- In every state an instruction answers once, or is the first byte step of a RECV. -/
theorem exec_answers_or_recvStep {i : Instr} {s t : State} (he : exec i s = .next t) :
    s.Answers t ∨ ∃ r, t = recvStep r s := by
  by_cases h : s.cfg.recvAtomicity = .chunk ∨ ∀ data, i ≠ .recv data
  · obtain ⟨t', ht', ha⟩ := exec_answers h
    rw [he] at ht'
    cases ht'
    exact .inl ha
  · push Not at h
    obtain ⟨hchunk, data, rfl⟩ := h
    have hbyte : s.cfg.recvAtomicity = .byte := by
      cases hm : s.cfg.recvAtomicity with
      | chunk => exact absurd hm hchunk
      | byte => rfl
    rw [exec_recv_of_byte hbyte] at he
    cases he
    exact .inr ⟨_, rfl⟩

theorem exec_cfg {i : Instr} {s t : State} (he : exec i s = .next t) : t.cfg = s.cfg := by
  rcases exec_answers_or_recvStep he with ha | ⟨r, rfl⟩
  · exact ha.cfg_eq
  · exact recvStep_cfg r s

theorem step_cfg {s t : State} (h : step s = .next t) : t.cfg = s.cfg := by
  rcases step_cases h with ⟨-, rfl⟩ | ⟨d, es, -, rfl⟩ | ⟨a, es, -, hserve⟩
  · rfl
  · rfl
  rcases hserve with rfl | ⟨r, -, rfl⟩ | ⟨e, rest, -, -, rfl⟩ | ⟨i, rest, -, -, he⟩
  · rfl
  · exact recvStep_cfg r _
  · exact setQueue_cfg (s.served a es) a rest
  · exact (exec_cfg he).trans (setQueue_cfg (s.served a es) a rest)

/-! ### What the reset event leaves on a port (R250) -/

theorem dropCommand_of_instr {q rest : List PortItem} {i : Instr} (h : decode q = .instr i rest) :
    dropCommand q = rest := by
  simp only [dropCommand, h]

theorem dropCommand_of_illegal {q rest : List PortItem} {e : DecodeError} (h : decode q = .illegal e rest) :
    dropCommand q = rest := by
  simp only [dropCommand, h]

theorem dropCommand_of_no_command {q : List PortItem} (h : decode q = .incomplete ∨ decode q = .stray) :
    dropCommand q = q := by
  rcases h with h | h <;> simp only [dropCommand, h]

theorem resetEvent_port (d : Option Agent) (s : State) (b : Agent) :
    (resetEvent d s).port b = (s.port b).afterReset (decide (d = some b)) := by
  cases b <;> rfl

/-- Where a RECV is in progress, or the agent's command is not the one struck, the items stay. -/
theorem resetEvent_queue_of_not_struck {d : Option Agent} {s : State} {b : Agent}
    (h : (s.port b).recv ≠ none ∨ d ≠ some b) : ((resetEvent d s).port b).queue = (s.port b).queue := by
  rw [resetEvent_port, Port.afterReset]
  cases hr : (s.port b).recv with
  | some r => rfl
  | none =>
    have hd : d ≠ some b := h.resolve_left fun hne => hne hr
    simp [hd]

/-- Where the agent's next command is struck, it is lost. -/
theorem resetEvent_queue_of_struck {s : State} {b : Agent} (hr : (s.port b).recv = none) :
    ((resetEvent (some b) s).port b).queue = dropCommand (s.port b).queue := by
  rw [resetEvent_port, Port.afterReset, hr]
  simp

theorem step_of_reset {s : State} {d : Option Agent} {es : List Event} (hs : s.schedule = .reset d :: es) :
    step s = .next (resetEvent d { s with schedule := es }) := by
  rw [step, hs]

/-! ### An instruction that only answers, issued again and again -/

/-- An instruction that gives one answer whatever was answered before, and changes nothing else, gives it `n` times. -/
theorem runInstrs_replicate_of_answered {i : Instr} {r : Response} (n : Nat) {s : State}
    (h : ∀ rs, exec i { s with responses := rs } = .next { s with responses := rs ++ [r] }) :
    runInstrs (List.replicate n i) s = .next { s with responses := s.responses ++ List.replicate n r } := by
  induction n generalizing s with
  | zero => rw [List.replicate_zero, List.replicate_zero, List.append_nil, runInstrs]
  | succ n ih =>
    rw [List.replicate_succ, runInstrs, show exec i s = .next (s.answered r) from h s.responses]
    calc runInstrs (List.replicate n i) (s.answered r)
        = .next { s with responses := (s.responses ++ [r]) ++ List.replicate n r } := ih h
      _ = .next { s with responses := s.responses ++ List.replicate (n + 1) r } := by
        rw [List.append_assoc, List.singleton_append, ← List.replicate_succ]

/-- A frame longer than the buffer is never all there (R23, R255). -/
theorem len_lt_of_stalled {s : State} (h : s.RingOk) {n : Nat} (hn : s.cfg.N < n ∨ s.len < n) : s.len < n := by
  obtain ⟨-, -, hle⟩ := h
  omega

end Sys2Proof.Machine

namespace Sys2Proof

open Machine

/-- Settles O43: the answers already emitted are no part of what makes READCMD answer `INSUFFICIENT`. -/
theorem stalledHeadAnswersInsufficientForever : Obligations.StalledHeadAnswersInsufficientForever := by
  intro s k rest n h hm hq hstall
  have hshort : s.len < k.payloadLen + 3 := len_lt_of_stalled h.ring hstall
  exact runInstrs_replicate_of_answered n fun rs =>
    exec_readcmd_of_short_robust (s := { s with responses := rs }) h.ring hq hm hshort

/-- Settles O45: the registers at each of the three resets, each port by what stood on it and whether it was struck. -/
theorem resetLeavesTheResetState : Obligations.ResetLeavesTheResetState := by
  refine ⟨⟨rfl, rfl, rfl⟩, fun s d es hs => ?_, fun s => ⟨_, rfl, rfl, rfl, rfl⟩⟩
  refine ⟨_, step_of_reset hs, rfl, rfl, rfl, State.contents_eq_nil rfl, rfl, rfl, rfl, rfl, rfl, fun b => ?_⟩
  refine ⟨?_, resetEvent_queue_of_not_struck, ?_⟩
  · rw [resetEvent_port, Port.afterReset_recv]
  · rintro hr rfl
    have hleft : ((resetEvent (some b) { s with schedule := es }).port b).queue = dropCommand (s.port b).queue :=
      resetEvent_queue_of_struck hr
    rw [hleft]
    exact ⟨fun _ _ => dropCommand_of_instr, fun _ _ => dropCommand_of_illegal, dropCommand_of_no_command⟩

/-- Settles O52: no case of a step writes the parameters. -/
theorem everyStepKeepsTheParameters : Obligations.EveryStepKeepsTheParameters := fun _ _ => step_cfg

end Sys2Proof
